-- ==== Sys2Proof/Word.lean ====
section
/-! DEFINITION. The machine's one word type (00_scope.md R6, R8, R9): registers, memory cells, addresses and instruction
words are unsigned 16-bit numbers, and `+` on them is addition modulo 65536 (R10). -/

namespace Sys2Proof

/-- A 16-bit value (R9): bit 15 is the sign bit when it is read as two's complement. -/
abbrev Word := BitVec 16

/-- How many cells memory has (20_memory.md R50): the addresses are 0 to `memSize - 1`. -/
def memSize : Nat := 65536

end Sys2Proof
end

