-- ==== Sys2Proof/Syntax.lean ====
section
/-! DEFINITION. The instruction set as syntax: the register names, the sixteen opcodes and one constructor of `Instr` per row
of spec/opcode_table.json (30_encoding.md R82, R83, R84, R87). -/

namespace Sys2Proof

/-- The eight general registers (10_state.md R22). -/
inductive Reg
  | R0 | R1 | R2 | R3 | R4 | R5 | R6 | R7
  deriving DecidableEq, Repr

/-- The closed enumeration of the register file's ten identifiers (10_state.md R20, R21). -/
inductive RegId
  | gpr (i : Reg)
  | PC
  | COND
  deriving DecidableEq, Repr

/-- The sixteen opcodes, in the order of the source's table (30_encoding.md R86); their numbers are `Opcode.toBits` of
Decode.lean. -/
inductive Opcode
  | BR | ADD | LD | ST | JSR | AND | LDR | STR | RTI | NOT | LDI | STI | JMP | RES | LEA | TRAP
  deriving DecidableEq, Repr

/-- One constructor per row of spec/opcode_table.json, in its order; the operands are the fields of 30_encoding.md R83 and
R84, the immediates and offsets still unextended. -/
inductive Instr
  /-- BR (43_control.md R170). -/
  | br (condMask : BitVec 3) (offset9 : BitVec 9)
  /-- ADD, register form (41_alu.md R130). -/
  | addReg (dr sr1 sr2 : Reg)
  /-- ADD, immediate form (41_alu.md R131). -/
  | addImm (dr sr1 : Reg) (imm5 : BitVec 5)
  /-- LD (42_load_store.md R150). -/
  | ld (dr : Reg) (offset9 : BitVec 9)
  /-- ST (42_load_store.md R154). -/
  | st (sr : Reg) (offset9 : BitVec 9)
  /-- JSR in register mode, written JSRR (43_control.md R174). -/
  | jsrr (baseReg : Reg)
  /-- JSR, PC-relative mode (43_control.md R173). -/
  | jsr (offset11 : BitVec 11)
  /-- AND, register form (41_alu.md R132). -/
  | andReg (dr sr1 sr2 : Reg)
  /-- AND, immediate form (41_alu.md R133). -/
  | andImm (dr sr1 : Reg) (imm5 : BitVec 5)
  /-- LDR (42_load_store.md R152). -/
  | ldr (dr baseReg : Reg) (offset6 : BitVec 6)
  /-- STR (42_load_store.md R156). -/
  | str (sr baseReg : Reg) (offset6 : BitVec 6)
  /-- RTI (44_system.md R191). `unused` is kept only because the fault reports the word (60_exceptions.md R201). -/
  | rti (unused : BitVec 12)
  /-- NOT (41_alu.md R134). -/
  | not (dr sr : Reg)
  /-- LDI (42_load_store.md R151). -/
  | ldi (dr : Reg) (offset9 : BitVec 9)
  /-- STI (42_load_store.md R155). -/
  | sti (sr : Reg) (offset9 : BitVec 9)
  /-- JMP (43_control.md R172). -/
  | jmp (baseReg : Reg)
  /-- RES (44_system.md R192). `unused` is kept only because the fault reports the word (60_exceptions.md R201). -/
  | res (unused : BitVec 12)
  /-- LEA (42_load_store.md R153). -/
  | lea (dr : Reg) (offset9 : BitVec 9)
  /-- TRAP (44_system.md R190). -/
  | trap (trapVector : BitVec 8)
  deriving DecidableEq, Repr

/-- The opcode of each form (30_encoding.md R87). -/
def Instr.opcode : Instr → Opcode
  | .br _ _ => .BR
  | .addReg _ _ _ => .ADD
  | .addImm _ _ _ => .ADD
  | .ld _ _ => .LD
  | .st _ _ => .ST
  | .jsrr _ => .JSR
  | .jsr _ => .JSR
  | .andReg _ _ _ => .AND
  | .andImm _ _ _ => .AND
  | .ldr _ _ _ => .LDR
  | .str _ _ _ => .STR
  | .rti _ => .RTI
  | .not _ _ => .NOT
  | .ldi _ _ => .LDI
  | .sti _ _ => .STI
  | .jmp _ => .JMP
  | .res _ => .RES
  | .lea _ _ => .LEA
  | .trap _ => .TRAP

/-- The pseudo-instruction NOP (30_encoding.md R94): BR with condMask 0 and offset 0. -/
def Instr.nop : Instr := .br 0#3 0#9

/-- The pseudo-instruction RET (30_encoding.md R94): JMP R7. -/
def Instr.ret : Instr := .jmp .R7

end Sys2Proof
end

