-- ==== Sys2Proof/Config.lean ====
section
/-! DEFINITION. What the spec leaves to the environment (00_scope.md R7): what a memory cell that no one has written reads
as, and what the trap callback does. `ENTRY_PC` and `INIT_MEM` are arguments of `State.loaded` (Machine/Ops.lean). -/

namespace Sys2Proof

/-- What a cell that the memory list does not name reads as. The list with this default can write down EVERY total function
from the 65536 addresses to words, so it is no assumption about a loaded memory; it fixes only what `State.reset` holds
before the loader acts. DESIGN CHOICE (log 2), unsafe for claims about a run from `State.reset` itself. -/
def Config.unlistedCell : Word := 0x0000#16

/-- What the environment sees of the machine: every register through the register file's read, every cell through the
memory's read, and the halt signal (44_system.md R193: "full read/write access to Register File and Memory"). -/
structure EnvView where
  /-- `read(registerId)` of the register file (10_state.md R20). -/
  readReg : RegId → Word
  /-- `MemRead` (20_memory.md R51). -/
  readMem : Word → Word
  /-- The halt signal (10_state.md R34). -/
  halt : Bool

/-- One thing the environment may do to the core (60_exceptions.md R216): write one of the ten registers, write one cell,
raise halt. There is no constructor that lowers halt (92_eei_decisions.md D7). -/
inductive EnvAccess
  | writeReg (r : RegId) (v : Word)
  | writeMem (a v : Word)
  | raiseHalt
  deriving DecidableEq, Repr

/-- `TRAP_CB` (00_scope.md R7, 44_system.md R193): the writes the callback makes, in order, at its `call`-th call of the run
with the vector and the view it is given. A FREE VALUE: it has no body, so nothing is known of it. The call number stands
for what lies outside the machine (a keystroke). DESIGN CHOICE on its shape (log 4): it always returns and never faults. -/
opaque Config.trapCallback (call : Nat) (trapVector : BitVec 8) (view : EnvView) : List EnvAccess

end Sys2Proof
end

