-- ==== Sys2Proof/Machine/Memory.lean ====
section
/-! DEFINITION. Memory as plain data: the flat array of 65536 16-bit cells (20_memory.md R50) as a list of (address, cell)
pairs in one canonical form. A cell is a 16-bit number and not two bytes (R57; log 1). -/

namespace Sys2Proof.Machine

/-- The cells that differ from what an unlisted cell reads as, each with its address. -/
abbrev Memory := List (Nat × Word)

/-- The cell at an address (20_memory.md R51). -/
def Memory.read : Memory → Nat → Word
  | [], _ => Config.unlistedCell
  | (k, v) :: rest, a => if k = a then v else Memory.read rest a

/-- The list without any entry for `a`. -/
def Memory.erase : Memory → Nat → Memory
  | [], _ => []
  | (k, v) :: rest, a => if k = a then Memory.erase rest a else (k, v) :: Memory.erase rest a

/-- The list with `(a, v)` put before the first larger address. -/
def Memory.insert : Memory → Nat → Word → Memory
  | [], a, v => [(a, v)]
  | (k, w) :: rest, a, v => if a < k then (a, v) :: (k, w) :: rest else (k, w) :: Memory.insert rest a v

/-- The store of one cell (20_memory.md R52). Storing what an unlisted cell reads as removes the entry, so that equal memories
are equal lists. -/
def Memory.write (m : Memory) (a : Nat) (v : Word) : Memory :=
  if v = Config.unlistedCell then m.erase a else (m.erase a).insert a v

/-- The canonical form from an address on: addresses strictly rising from at least `low`, below `memSize`, and no entry equal
to what an unlisted cell reads as. -/
def Memory.wfFrom : Nat → Memory → Bool
  | _, [] => true
  | low, (k, v) :: rest =>
    decide (low ≤ k) && decide (k < memSize) && decide (v ≠ Config.unlistedCell) && Memory.wfFrom (k + 1) rest

/-- The canonical form of a memory. -/
def Memory.wf (m : Memory) : Bool := Memory.wfFrom 0 m

/-- The cells of `f` at the `n` addresses from `a` on. -/
def Memory.tabulate (f : Word → Word) : Nat → Nat → Memory
  | 0, _ => []
  | n + 1, a =>
    if f (BitVec.ofNat 16 a) = Config.unlistedCell then Memory.tabulate f n (a + 1)
    else (a, f (BitVec.ofNat 16 a)) :: Memory.tabulate f n (a + 1)

/-- The memory that holds a given total function from addresses to words (`INIT_MEM`, 00_scope.md R7). -/
def Memory.ofFn (f : Word → Word) : Memory := Memory.tabulate f memSize 0

end Sys2Proof.Machine
end

