-- ==== Sys2Proof/Machine/State.lean ====
section
/-! DEFINITION. The machine's state (10_state.md, opening tuple), the reasons a step can stop, and the state at reset. -/

namespace Sys2Proof.Machine

/-- The eight general registers `x[0]` to `x[7]` (10_state.md R22). -/
structure Gprs where
  r0 : Word
  r1 : Word
  r2 : Word
  r3 : Word
  r4 : Word
  r5 : Word
  r6 : Word
  r7 : Word
  deriving DecidableEq, Repr

/-- The whole state (10_state.md, opening tuple), and the model's own call counter. -/
structure State where
  /-- `x[0..7]` (10_state.md R22). -/
  x : Gprs
  /-- The program counter (10_state.md R25). -/
  pc : Word
  /-- The condition register COND (10_state.md R28). -/
  cond : Word
  /-- Memory (20_memory.md R50), as the list of Machine/Memory.lean. -/
  mem : Memory
  /-- The halt signal (10_state.md R34). -/
  halt : Bool
  /-- THE MODEL'S OWN: how many trap callbacks have run. It picks the callback's next outcome (log 5). -/
  trapCalls : Nat
  deriving DecidableEq, Repr

/-- The opcode that raised the fault (60_exceptions.md R201). -/
inductive FaultCause
  | RTI
  | RES
  deriving DecidableEq, Repr

/-- Why a step stops with a fault. -/
inductive Fault
  /-- Raised by `execRti` and `execRes` on every path (60_exceptions.md R200, R201): the cause, the instruction word, its
  address `pc - 1`, and the state at the fault "for inspection" (92_eei_decisions.md D19), which nothing resumes. Safe: the
  spec's machine stops here too. -/
  | unimplementedInstruction (cause : FaultCause) (ir addr : Word) (state : State)
  deriving DecidableEq, Repr

/-- Why a step is refused. -/
inductive Refusal
  /-- Answered by an arm of `exec` whose instruction has no meaning yet; no arm of this model answers it. Safe: the model
  stops where the machine may go on. -/
  | notModelled (mnemonic : String)
  deriving DecidableEq, Repr

/-- The state right after creation and before the loader acts (70_reset_and_hazards.md R230 step 1, 10_state.md R37): all ten
registers 0, halt 0, memory with nothing listed (log 2, log 3); the call counter 0 (log 5). -/
def State.reset : State where
  x := ⟨0x0000#16, 0x0000#16, 0x0000#16, 0x0000#16, 0x0000#16, 0x0000#16, 0x0000#16, 0x0000#16⟩
  pc := 0x0000#16
  cond := 0x0000#16
  mem := []
  halt := false
  trapCalls := 0

end Sys2Proof.Machine
end

