-- ==== Sys2Proof/Machine/Ops.lean ====
section
/-! DEFINITION. The named operations over registers and memory, the fetch, the one fault, the trap callback, and what the
environment may do (10_state.md R20, 20_memory.md R51 and R52, 40_fetch_dispatch.md R112, 60_exceptions.md R200 and R216).

The machine has one exception and no exception entry: the fault saves nothing and ends the run (60_exceptions.md R203, R204).
It has no return from an exception either (R206); RTI itself faults. -/

namespace Sys2Proof.Machine

/-- What one instruction answers. -/
abbrev Result := Host.Outcome State Fault Refusal

/-- Read of one of the eight registers. -/
def Gprs.get (g : Gprs) : Reg → Word
  | .R0 => g.r0
  | .R1 => g.r1
  | .R2 => g.r2
  | .R3 => g.r3
  | .R4 => g.r4
  | .R5 => g.r5
  | .R6 => g.r6
  | .R7 => g.r7

/-- Write of one of the eight registers. -/
def Gprs.set (g : Gprs) (i : Reg) (v : Word) : Gprs :=
  match i with
  | .R0 => { g with r0 := v }
  | .R1 => { g with r1 := v }
  | .R2 => { g with r2 := v }
  | .R3 => { g with r3 := v }
  | .R4 => { g with r4 := v }
  | .R5 => { g with r5 := v }
  | .R6 => { g with r6 := v }
  | .R7 => { g with r7 := v }

/-- `x[i]` (00_scope.md R13). -/
def State.gpr (s : State) (i : Reg) : Word := s.x.get i

/-- `x[i] <- v` (00_scope.md R13). -/
def State.setGpr (s : State) (i : Reg) (v : Word) : State := { s with x := s.x.set i v }

/-- `pc <- target` (00_scope.md R13). -/
def State.setPc (s : State) (target : Word) : State := { s with pc := target }

/-- `cond <- v` (00_scope.md R13). -/
def State.setCond (s : State) (v : Word) : State := { s with cond := v }

/-- The halt signal raised (10_state.md R34); by the environment only. -/
def State.raiseHalt (s : State) : State := { s with halt := true }

/-- The register file's `read(registerId)` (10_state.md R20). -/
def State.readReg (s : State) : RegId → Word
  | .gpr i => s.gpr i
  | .PC => s.pc
  | .COND => s.cond

/-- The register file's `write(registerId, value)` (10_state.md R20). -/
def State.writeReg (s : State) (r : RegId) (v : Word) : State :=
  match r with
  | .gpr i => s.setGpr i v
  | .PC => s.setPc v
  | .COND => s.setCond v

/-- A register write of a value of any width: "Writes always store the low 16 bits of the given value" (10_state.md R20). -/
def State.writeRegNat (s : State) (r : RegId) (v : Nat) : State := s.writeReg r (BitVec.ofNat 16 v)

/-- `MemRead(addr, 16)` (20_memory.md R51). -/
def State.memRead (s : State) (addr : Word) : Word := s.mem.read addr.toNat

/-- `MemWrite(addr, 16, v)` (20_memory.md R52). -/
def State.memWrite (s : State) (addr v : Word) : State := { s with mem := s.mem.write addr.toNat v }

/-- The fetched instruction word, `MemRead(pc, 16)` (40_fetch_dispatch.md R112; log 10). -/
def State.fetchWord (s : State) : Word := s.memRead s.pc

/-- The fetch step's increment, `pc <- pc + 1` modulo 65536 (40_fetch_dispatch.md R112, 10_state.md R26). -/
def State.advancePc (s : State) : State := s.setPc (s.pc + 1#16)

/-- `raise UnimplementedInstruction(cause, ir)` (60_exceptions.md R200, R201): the address is `pc - 1`, the state is left as it
is (R204; log 11). -/
def raiseUnimplemented (cause : FaultCause) (ir : Word) (s : State) : Result :=
  .fault (.unimplementedInstruction cause ir (s.pc - 1#16) s)

/-- What the environment sees (44_system.md R193). -/
def State.view (s : State) : EnvView where
  readReg := s.readReg
  readMem := s.memRead
  halt := s.halt

/-- One write of the environment (60_exceptions.md R216). -/
def State.envAccess (s : State) : EnvAccess → State
  | .writeReg r v => s.writeReg r v
  | .writeMem a v => s.memWrite a v
  | .raiseHalt => s.raiseHalt

/-- The environment's writes, in order. -/
def State.envAccesses (s : State) : List EnvAccess → State
  | [] => s
  | a :: rest => (s.envAccess a).envAccesses rest

/-- `TrapCallback(vec)` (44_system.md R190, R193): the callback sees the state at the call, with `pc` already incremented, and
runs to completion; the core does nothing else (log 4, log 5). -/
def State.trapCall (s : State) (vec : BitVec 8) : State :=
  { s with trapCalls := s.trapCalls + 1 }.envAccesses (Config.trapCallback s.trapCalls vec s.view)

/-- The loader (70_reset_and_hazards.md R232): the state at the start of a run (10_state.md R37), for every `ENTRY_PC` and
`INIT_MEM` (log 3). -/
def State.loaded (entryPc : Word) (initMem : Word → Word) : State :=
  { State.reset with pc := entryPc, mem := Memory.ofFn initMem }

end Sys2Proof.Machine
end

