-- ==== Sys2Proof/Machine/Flags.lean ====
section
/-! DEFINITION. The condition codes, the Flag Evaluator and BR's test (10_state.md R28, R29, 43_control.md R170). -/

namespace Sys2Proof.Machine

/-- The last result was non-zero with bit 15 clear (10_state.md R28). -/
def condPOS : Word := 0x0001#16

/-- The last result was zero (10_state.md R28). -/
def condZRO : Word := 0x0002#16

/-- The last result had bit 15 set (10_state.md R28). -/
def condNEG : Word := 0x0004#16

/-- The condition code of a value (10_state.md R29). -/
def condOf (v : Word) : Word :=
  if v = 0x0000#16 then condZRO else if v.getLsbD 15 then condNEG else condPOS

/-- `setcc(i)`, the Flag Evaluator: it reads `x[i]` as it now stands and overwrites all of `cond` (10_state.md R29). -/
def State.setcc (s : State) (i : Reg) : State := s.setCond (condOf (s.gpr i))

/-- BR's test, `(zext_3(condMask) & cond) != 0` (43_control.md R170, the spec's decision D13; log 16). -/
def brTaken (condMask : BitVec 3) (cond : Word) : Bool := condMask.zeroExtend 16 &&& cond != 0x0000#16

end Sys2Proof.Machine
end

