-- ==== Sys2Proof/Machine/Operands.lean ====
section
/-! DEFINITION. Immediates, addresses and the writing of a result (00_scope.md R11, 42_load_store.md R157). In every use `pc` is
the incremented program counter (40_fetch_dispatch.md R112). -/

namespace Sys2Proof.Machine

/-- `sext_N(v)` (00_scope.md R11). -/
def sext {n : Nat} (v : BitVec n) : Word := v.signExtend 16

/-- PC-relative with a 9-bit offset: `pc + sext_9(offset9)` (42_load_store.md R157). -/
def pcAddr9 (s : State) (offset9 : BitVec 9) : Word := s.pc + sext offset9

/-- PC-relative with an 11-bit offset: `pc + sext_11(offset11)` (43_control.md R173). -/
def pcAddr11 (s : State) (offset11 : BitVec 11) : Word := s.pc + sext offset11

/-- Indirect: the cell at the PC-relative address holds the operand's address (42_load_store.md R157). -/
def indirectAddr (s : State) (offset9 : BitVec 9) : Word := s.memRead (pcAddr9 s offset9)

/-- Base plus offset: `x[baseReg] + sext_6(offset6)` (42_load_store.md R157). -/
def baseAddr (s : State) (baseReg : Reg) (offset6 : BitVec 6) : Word := s.gpr baseReg + sext offset6

/-- `x[dr] <- v; setcc(dr)`: the end of the seven flag-setting instructions (10_state.md R30). -/
def State.writeResult (s : State) (dr : Reg) (v : Word) : State := (s.setGpr dr v).setcc dr

/-- `x[7] <- pc`, the link of both JSR forms (10_state.md R23). -/
def State.link (s : State) : State := s.setGpr .R7 s.pc

end Sys2Proof.Machine
end

