-- ==== Sys2Proof/Machine/Alu.lean ====
section
/-! DEFINITION. ADD, AND and NOT (41_alu.md R130 to R135). -/

namespace Sys2Proof.Machine

/-- ADD, register form (41_alu.md R130). -/
def execAddReg (dr sr1 sr2 : Reg) (s : State) : Result := .next (s.writeResult dr (s.gpr sr1 + s.gpr sr2))

/-- ADD, immediate form (41_alu.md R131). -/
def execAddImm (dr sr1 : Reg) (imm5 : BitVec 5) (s : State) : Result := .next (s.writeResult dr (s.gpr sr1 + sext imm5))

/-- AND, register form (41_alu.md R132). -/
def execAndReg (dr sr1 sr2 : Reg) (s : State) : Result := .next (s.writeResult dr (s.gpr sr1 &&& s.gpr sr2))

/-- AND, immediate form (41_alu.md R133). -/
def execAndImm (dr sr1 : Reg) (imm5 : BitVec 5) (s : State) : Result := .next (s.writeResult dr (s.gpr sr1 &&& sext imm5))

/-- NOT (41_alu.md R134). -/
def execNot (dr sr : Reg) (s : State) : Result := .next (s.writeResult dr (~~~ s.gpr sr))

end Sys2Proof.Machine
end

