-- ==== Sys2Proof/Machine/Control.lean ====
section
/-! DEFINITION. BR, JMP and both forms of JSR (43_control.md R170 to R174). -/

namespace Sys2Proof.Machine

/-- BR (43_control.md R170, R171). -/
def execBr (condMask : BitVec 3) (offset9 : BitVec 9) (s : State) : Result :=
  .next (if brTaken condMask s.cond then s.setPc (pcAddr9 s offset9) else s)

/-- JMP (43_control.md R172). -/
def execJmp (baseReg : Reg) (s : State) : Result := .next (s.setPc (s.gpr baseReg))

/-- JSR, PC-relative form (43_control.md R173): the link and the target's base are the same incremented `pc`. -/
def execJsr (offset11 : BitVec 11) (s : State) : Result := .next (s.link.setPc (pcAddr11 s offset11))

/-- JSR, register form (43_control.md R174): the link is written first, then the base is read, in the order of the pseudocode.
No word names R7 here, so the order cannot be observed; for the ill-formed term `jsrr R7` it gives the link (log 15). -/
def execJsrr (baseReg : Reg) (s : State) : Result := .next (s.link.setPc (s.link.gpr baseReg))

end Sys2Proof.Machine
end

