-- ==== Sys2Proof/Machine/LoadStore.lean ====
section
/-! DEFINITION. LD, LDI, LDR, LEA, ST, STI and STR (42_load_store.md R150 to R156). -/

namespace Sys2Proof.Machine

/-- LD (42_load_store.md R150). -/
def execLd (dr : Reg) (offset9 : BitVec 9) (s : State) : Result := .next (s.writeResult dr (s.memRead (pcAddr9 s offset9)))

/-- LDI (42_load_store.md R151): the pointer is read first, then the operand. -/
def execLdi (dr : Reg) (offset9 : BitVec 9) (s : State) : Result :=
  .next (s.writeResult dr (s.memRead (indirectAddr s offset9)))

/-- LDR (42_load_store.md R152): the address is formed from the old value of the base register. -/
def execLdr (dr baseReg : Reg) (offset6 : BitVec 6) (s : State) : Result :=
  .next (s.writeResult dr (s.memRead (baseAddr s baseReg offset6)))

/-- LEA (42_load_store.md R153): no memory access; it sets the flags. -/
def execLea (dr : Reg) (offset9 : BitVec 9) (s : State) : Result := .next (s.writeResult dr (pcAddr9 s offset9))

/-- ST (42_load_store.md R154). -/
def execSt (sr : Reg) (offset9 : BitVec 9) (s : State) : Result := .next (s.memWrite (pcAddr9 s offset9) (s.gpr sr))

/-- STI (42_load_store.md R155): the pointer is read before the write. -/
def execSti (sr : Reg) (offset9 : BitVec 9) (s : State) : Result := .next (s.memWrite (indirectAddr s offset9) (s.gpr sr))

/-- STR (42_load_store.md R156). -/
def execStr (sr baseReg : Reg) (offset6 : BitVec 6) (s : State) : Result :=
  .next (s.memWrite (baseAddr s baseReg offset6) (s.gpr sr))

end Sys2Proof.Machine
end

