-- ==== Sys2Proof/WellFormed.lean ====
section
/-! DEFINITION. Which terms of `Instr` some word encodes. The operand types hold every other bound; the one check left is the
two-bit base field of JSR in register mode (30_encoding.md R83, 43_control.md R174). -/

namespace Sys2Proof

/-- The registers a two-bit field can name: R0 to R3 (30_encoding.md R83). -/
def Reg.lowFour : Reg → Bool
  | .R0 | .R1 | .R2 | .R3 => true
  | .R4 | .R5 | .R6 | .R7 => false

/-- An instruction is well-formed when a word encodes it. -/
def Instr.wf : Instr → Bool
  | .br _ _ => true
  | .addReg _ _ _ => true
  | .addImm _ _ _ => true
  | .ld _ _ => true
  | .st _ _ => true
  | .jsrr baseReg => baseReg.lowFour
  | .jsr _ => true
  | .andReg _ _ _ => true
  | .andImm _ _ _ => true
  | .ldr _ _ _ => true
  | .str _ _ _ => true
  | .rti _ => true
  | .not _ _ => true
  | .ldi _ _ => true
  | .sti _ _ => true
  | .jmp _ => true
  | .res _ => true
  | .lea _ _ => true
  | .trap _ => true

end Sys2Proof
end

