-- ==== Sys2Proof/Decode.lean ====
section
/-! DEFINITION. The decoder, the encoder, the table of forms and the notation of the examples, all from 30_encoding.md. -/

namespace Sys2Proof

/-- The numeric opcode values (30_encoding.md R86, the spec's decision D1; log 8): the whole numbering is this one table. -/
def Opcode.toBits : Opcode → BitVec 4
  | .BR => 0#4
  | .ADD => 1#4
  | .LD => 2#4
  | .ST => 3#4
  | .JSR => 4#4
  | .AND => 5#4
  | .LDR => 6#4
  | .STR => 7#4
  | .RTI => 8#4
  | .NOT => 9#4
  | .LDI => 10#4
  | .STI => 11#4
  | .JMP => 12#4
  | .RES => 13#4
  | .LEA => 14#4
  | .TRAP => 15#4

/-- The opcode of a 4-bit value; every value has one (30_encoding.md R91). -/
def Opcode.ofBits (b : BitVec 4) : Opcode :=
  match b.toNat with
  | 0 => .BR
  | 1 => .ADD
  | 2 => .LD
  | 3 => .ST
  | 4 => .JSR
  | 5 => .AND
  | 6 => .LDR
  | 7 => .STR
  | 8 => .RTI
  | 9 => .NOT
  | 10 => .LDI
  | 11 => .STI
  | 12 => .JMP
  | 13 => .RES
  | 14 => .LEA
  | _ => .TRAP

/-- A register field's value `k` names `Rk` (30_encoding.md R83). -/
def Reg.toBits : Reg → BitVec 3
  | .R0 => 0#3
  | .R1 => 1#3
  | .R2 => 2#3
  | .R3 => 3#3
  | .R4 => 4#3
  | .R5 => 5#3
  | .R6 => 6#3
  | .R7 => 7#3

/-- The register a 3-bit field names (30_encoding.md R83). -/
def Reg.ofBits (b : BitVec 3) : Reg :=
  match b.toNat with
  | 0 => .R0
  | 1 => .R1
  | 2 => .R2
  | 3 => .R3
  | 4 => .R4
  | 5 => .R5
  | 6 => .R6
  | _ => .R7

/-- `bits[15:12]` (30_encoding.md R81). -/
def opcodeField (w : Word) : Opcode := Opcode.ofBits (w.extractLsb' 12 4)

/-- The register field `bits[11:9]`: DR, or SR of a store (30_encoding.md R83). -/
def regField11 (w : Word) : Reg := Reg.ofBits (w.extractLsb' 9 3)

/-- The register field `bits[8:6]`: SR1, SR of NOT, or baseReg (30_encoding.md R83). -/
def regField8 (w : Word) : Reg := Reg.ofBits (w.extractLsb' 6 3)

/-- The register field `bits[2:0]`: SR2 (30_encoding.md R83). -/
def regField2 (w : Word) : Reg := Reg.ofBits (w.extractLsb' 0 3)

/-- `JSR_BASE_FIELD` (00_scope.md R7): the two-bit field `bits[10:9]`, R0 to R3 (30_encoding.md R83, the spec's decision
D12; log 15). -/
def jsrBaseField (w : Word) : Reg := Reg.ofBits ((w.extractLsb' 9 2).zeroExtend 3)

/-- `offset9 = bits[8:0]` (30_encoding.md R84). -/
def offset9Field (w : Word) : BitVec 9 := w.extractLsb' 0 9

/-- The decoder (30_encoding.md R81, R82, R85, R87). It is total: every word is an instruction, so there is no word to reject
(R91). Unused bits are not looked at (R88). -/
def decode (w : Word) : Instr :=
  match opcodeField w with
  | .BR => .br (w.extractLsb' 9 3) (offset9Field w)
  | .ADD =>
    if w.getLsbD 5 then .addImm (regField11 w) (regField8 w) (w.extractLsb' 0 5)
    else .addReg (regField11 w) (regField8 w) (regField2 w)
  | .LD => .ld (regField11 w) (offset9Field w)
  | .ST => .st (regField11 w) (offset9Field w)
  | .JSR => if w.getLsbD 11 then .jsr (w.extractLsb' 0 11) else .jsrr (jsrBaseField w)
  | .AND =>
    if w.getLsbD 5 then .andImm (regField11 w) (regField8 w) (w.extractLsb' 0 5)
    else .andReg (regField11 w) (regField8 w) (regField2 w)
  | .LDR => .ldr (regField11 w) (regField8 w) (w.extractLsb' 0 6)
  | .STR => .str (regField11 w) (regField8 w) (w.extractLsb' 0 6)
  | .RTI => .rti (w.extractLsb' 0 12)
  | .NOT => .not (regField11 w) (regField8 w)
  | .LDI => .ldi (regField11 w) (offset9Field w)
  | .STI => .sti (regField11 w) (offset9Field w)
  | .JMP => .jmp (regField8 w)
  | .RES => .res (w.extractLsb' 0 12)
  | .LEA => .lea (regField11 w) (offset9Field w)
  | .TRAP => .trap (w.extractLsb' 0 8)

/-- The encoder: the patterns of 30_encoding.md R82, bit 15 first, with unused bits 0 (R93). For an ill-formed JSRR it writes
the low two bits of the register number. -/
def encode : Instr → Word
  | .br condMask offset9 => Opcode.BR.toBits ++ condMask ++ offset9
  | .addReg dr sr1 sr2 => Opcode.ADD.toBits ++ dr.toBits ++ sr1.toBits ++ 0#1 ++ 0#2 ++ sr2.toBits
  | .addImm dr sr1 imm5 => Opcode.ADD.toBits ++ dr.toBits ++ sr1.toBits ++ 1#1 ++ imm5
  | .ld dr offset9 => Opcode.LD.toBits ++ dr.toBits ++ offset9
  | .st sr offset9 => Opcode.ST.toBits ++ sr.toBits ++ offset9
  | .jsrr baseReg => Opcode.JSR.toBits ++ 0#1 ++ baseReg.toBits.extractLsb' 0 2 ++ 0#9
  | .jsr offset11 => Opcode.JSR.toBits ++ 1#1 ++ offset11
  | .andReg dr sr1 sr2 => Opcode.AND.toBits ++ dr.toBits ++ sr1.toBits ++ 0#1 ++ 0#2 ++ sr2.toBits
  | .andImm dr sr1 imm5 => Opcode.AND.toBits ++ dr.toBits ++ sr1.toBits ++ 1#1 ++ imm5
  | .ldr dr baseReg offset6 => Opcode.LDR.toBits ++ dr.toBits ++ baseReg.toBits ++ offset6
  | .str sr baseReg offset6 => Opcode.STR.toBits ++ sr.toBits ++ baseReg.toBits ++ offset6
  | .rti unused => Opcode.RTI.toBits ++ unused
  | .not dr sr => Opcode.NOT.toBits ++ dr.toBits ++ sr.toBits ++ 0#6
  | .ldi dr offset9 => Opcode.LDI.toBits ++ dr.toBits ++ offset9
  | .sti sr offset9 => Opcode.STI.toBits ++ sr.toBits ++ offset9
  | .jmp baseReg => Opcode.JMP.toBits ++ 0#3 ++ baseReg.toBits ++ 0#6
  | .res unused => Opcode.RES.toBits ++ unused
  | .lea dr offset9 => Opcode.LEA.toBits ++ dr.toBits ++ offset9
  | .trap trapVector => Opcode.TRAP.toBits ++ 0#4 ++ trapVector

/-- The host's reading of an opcode-table row: the first `nbits` bits of an instruction, the bits above them zero. Every
instruction is one 16-bit word (30_encoding.md R80), so a longer one does not exist (log 21). -/
def decodeTableWord (nbits w : Nat) : Option Instr :=
  if nbits ≤ 16 ∧ w < 2 ^ nbits then some (decode (BitVec.ofNat 16 w)) else none

/-- One row of the opcode map (30_encoding.md R87): a word `w` is of this form exactly when `w & mask == match`. -/
structure FormRow where
  mnemonic : String
  matchBits : Word
  mask : Word
  deriving DecidableEq, Repr

/-- The test of 30_encoding.md R87. -/
def FormRow.matches (r : FormRow) (w : Word) : Bool := w &&& r.mask == r.matchBits

/-- The row of each form (30_encoding.md R87). -/
def formRow : Instr → FormRow
  | .br _ _ => ⟨"BR", 0x0000#16, 0xF000#16⟩
  | .addReg _ _ _ => ⟨"ADD", 0x1000#16, 0xF020#16⟩
  | .addImm _ _ _ => ⟨"ADD", 0x1020#16, 0xF020#16⟩
  | .ld _ _ => ⟨"LD", 0x2000#16, 0xF000#16⟩
  | .st _ _ => ⟨"ST", 0x3000#16, 0xF000#16⟩
  | .jsrr _ => ⟨"JSRR", 0x4000#16, 0xF800#16⟩
  | .jsr _ => ⟨"JSR", 0x4800#16, 0xF800#16⟩
  | .andReg _ _ _ => ⟨"AND", 0x5000#16, 0xF020#16⟩
  | .andImm _ _ _ => ⟨"AND", 0x5020#16, 0xF020#16⟩
  | .ldr _ _ _ => ⟨"LDR", 0x6000#16, 0xF000#16⟩
  | .str _ _ _ => ⟨"STR", 0x7000#16, 0xF000#16⟩
  | .rti _ => ⟨"RTI", 0x8000#16, 0xF000#16⟩
  | .not _ _ => ⟨"NOT", 0x9000#16, 0xF000#16⟩
  | .ldi _ _ => ⟨"LDI", 0xA000#16, 0xF000#16⟩
  | .sti _ _ => ⟨"STI", 0xB000#16, 0xF000#16⟩
  | .jmp _ => ⟨"JMP", 0xC000#16, 0xF000#16⟩
  | .res _ => ⟨"RES", 0xD000#16, 0xF000#16⟩
  | .lea _ _ => ⟨"LEA", 0xE000#16, 0xF000#16⟩
  | .trap _ => ⟨"TRAP", 0xF000#16, 0xF000#16⟩

/-- The bits of each form to which a field or a fixed value is assigned; the others are unused (30_encoding.md R82, R88). The
low bits of RTI and RES count here, since the fault reports them (60_exceptions.md R201). -/
def usedBits : Instr → Word
  | .addReg _ _ _ | .andReg _ _ _ => 0xFFE7#16
  | .not _ _ => 0xFFC0#16
  | .jmp _ => 0xF1C0#16
  | .jsrr _ => 0xFE00#16
  | .trap _ => 0xF0FF#16
  | .br _ _ | .addImm _ _ _ | .ld _ _ | .st _ _ | .jsr _ | .andImm _ _ _ | .ldr _ _ _ | .str _ _ _ | .rti _ | .ldi _ _
  | .sti _ _ | .res _ | .lea _ _ => 0xFFFF#16

/-- The nineteen rows of the opcode map, in its order (30_encoding.md R87). -/
def formRows : List FormRow :=
  [ formRow (.br 0#3 0#9), formRow (.addReg .R0 .R0 .R0), formRow (.addImm .R0 .R0 0#5), formRow (.ld .R0 0#9),
    formRow (.st .R0 0#9), formRow (.jsrr .R0), formRow (.jsr 0#11), formRow (.andReg .R0 .R0 .R0),
    formRow (.andImm .R0 .R0 0#5), formRow (.ldr .R0 .R0 0#6) ] ++
  [ formRow (.str .R0 .R0 0#6), formRow (.rti 0#12), formRow (.not .R0 .R0), formRow (.ldi .R0 0#9),
    formRow (.sti .R0 0#9), formRow (.jmp .R0), formRow (.res 0#12), formRow (.lea .R0 0#9), formRow (.trap 0#8) ]

/-- An operand of the spec's notation (30_encoding.md R93). -/
inductive AsmOperand
  /-- A register, R0 to R7. -/
  | reg (r : Reg)
  /-- A signed decimal number after `#`. -/
  | imm (i : Int)
  /-- A trap vector, `xVV`. -/
  | vector (v : BitVec 8)
  /-- A whole word, `xNNNN`. -/
  | word (w : Word)
  deriving DecidableEq, Repr

/-- One line of the spec's notation: a mnemonic and its operands, in order (30_encoding.md R93). -/
structure AsmLine where
  mnemonic : String
  operands : List AsmOperand
  deriving DecidableEq, Repr

/-- BR's mnemonic: the letter n for bit 11, z for bit 10, p for bit 9 (30_encoding.md R93, 43_control.md R171). -/
def brMnemonic (condMask : BitVec 3) : String :=
  match condMask.toNat with
  | 0 => "NOP"
  | 1 => "BRp"
  | 2 => "BRz"
  | 3 => "BRzp"
  | 4 => "BRn"
  | 5 => "BRnp"
  | 6 => "BRnz"
  | _ => "BRnzp"

/-- A cell written as the word it holds (30_encoding.md R93, last row). -/
def asmFill (w : Word) : AsmLine := ⟨".FILL", [.word w]⟩

/-- The notation of each instruction (30_encoding.md R93, R94, the spec's decision D14). A word that the notation cannot write (mask 0
with an offset, RTI or RES with unused bits set) is written as the cell that holds it (log 23). -/
def Instr.asm : Instr → AsmLine
  | .br condMask offset9 =>
    if condMask ≠ 0#3 then ⟨brMnemonic condMask, [.imm offset9.toInt]⟩
    else if offset9 = 0#9 then ⟨"NOP", []⟩
    else asmFill (encode (.br condMask offset9))
  | .addReg dr sr1 sr2 => ⟨"ADD", [.reg dr, .reg sr1, .reg sr2]⟩
  | .addImm dr sr1 imm5 => ⟨"ADD", [.reg dr, .reg sr1, .imm imm5.toInt]⟩
  | .ld dr offset9 => ⟨"LD", [.reg dr, .imm offset9.toInt]⟩
  | .st sr offset9 => ⟨"ST", [.reg sr, .imm offset9.toInt]⟩
  | .jsrr baseReg => ⟨"JSRR", [.reg baseReg]⟩
  | .jsr offset11 => ⟨"JSR", [.imm offset11.toInt]⟩
  | .andReg dr sr1 sr2 => ⟨"AND", [.reg dr, .reg sr1, .reg sr2]⟩
  | .andImm dr sr1 imm5 => ⟨"AND", [.reg dr, .reg sr1, .imm imm5.toInt]⟩
  | .ldr dr baseReg offset6 => ⟨"LDR", [.reg dr, .reg baseReg, .imm offset6.toInt]⟩
  | .str sr baseReg offset6 => ⟨"STR", [.reg sr, .reg baseReg, .imm offset6.toInt]⟩
  | .rti unused => if unused = 0#12 then ⟨"RTI", []⟩ else asmFill (encode (.rti unused))
  | .not dr sr => ⟨"NOT", [.reg dr, .reg sr]⟩
  | .ldi dr offset9 => ⟨"LDI", [.reg dr, .imm offset9.toInt]⟩
  | .sti sr offset9 => ⟨"STI", [.reg sr, .imm offset9.toInt]⟩
  | .jmp baseReg => ⟨"JMP", [.reg baseReg]⟩
  | .res unused => if unused = 0#12 then ⟨"RES", []⟩ else asmFill (encode (.res unused))
  | .lea dr offset9 => ⟨"LEA", [.reg dr, .imm offset9.toInt]⟩
  | .trap trapVector => ⟨"TRAP", [.vector trapVector]⟩

end Sys2Proof
end

