-- ==== Sys2Proof/Machine/System.lean ====
section
/-! DEFINITION. TRAP, RTI and RES (44_system.md R190 to R193). -/

namespace Sys2Proof.Machine

/-- TRAP (44_system.md R190): routed to the callback with the vector; the core itself does nothing else. -/
def execTrap (trapVector : BitVec 8) (s : State) : Result := .next (s.trapCall trapVector)

/-- RTI (44_system.md R191): always the fault. -/
def execRti (unused : BitVec 12) (s : State) : Result := raiseUnimplemented .RTI (encode (.rti unused)) s

/-- RES (44_system.md R192): always the fault. -/
def execRes (unused : BitVec 12) (s : State) : Result := raiseUnimplemented .RES (encode (.res unused)) s

end Sys2Proof.Machine
end

