-- ==== Sys2Proof/Machine/Dispatch.lean ====
section
/-! DEFINITION. The opcode dispatch multiplexer (40_fetch_dispatch.md R113): one arm per form. -/

namespace Sys2Proof.Machine

def exec (i : Instr) (s : State) : Host.Outcome State Fault Refusal :=
  match i with
  | .br condMask offset9 => Sys2Proof.Machine.execBr condMask offset9 s
  | .addReg dr sr1 sr2 => Sys2Proof.Machine.execAddReg dr sr1 sr2 s
  | .addImm dr sr1 imm5 => Sys2Proof.Machine.execAddImm dr sr1 imm5 s
  | .ld dr offset9 => Sys2Proof.Machine.execLd dr offset9 s
  | .st sr offset9 => Sys2Proof.Machine.execSt sr offset9 s
  | .jsrr baseReg => Sys2Proof.Machine.execJsrr baseReg s
  | .jsr offset11 => Sys2Proof.Machine.execJsr offset11 s
  | .andReg dr sr1 sr2 => Sys2Proof.Machine.execAndReg dr sr1 sr2 s
  | .andImm dr sr1 imm5 => Sys2Proof.Machine.execAndImm dr sr1 imm5 s
  | .ldr dr baseReg offset6 => Sys2Proof.Machine.execLdr dr baseReg offset6 s
  | .str sr baseReg offset6 => Sys2Proof.Machine.execStr sr baseReg offset6 s
  | .rti unused => Sys2Proof.Machine.execRti unused s
  | .not dr sr => Sys2Proof.Machine.execNot dr sr s
  | .ldi dr offset9 => Sys2Proof.Machine.execLdi dr offset9 s
  | .sti sr offset9 => Sys2Proof.Machine.execSti sr offset9 s
  | .jmp baseReg => Sys2Proof.Machine.execJmp baseReg s
  | .res unused => Sys2Proof.Machine.execRes unused s
  | .lea dr offset9 => Sys2Proof.Machine.execLea dr offset9 s
  | .trap trapVector => Sys2Proof.Machine.execTrap trapVector s

end Sys2Proof.Machine
end

