-- ==== Sys2Proof/Machine/Step.lean ====
section
/-! DEFINITION. One step of the machine (40_fetch_dispatch.md R110 to R115). -/

namespace Sys2Proof.Machine

/-- `Execute(w)` (40_fetch_dispatch.md R113, R114): the handler of a word, with no halt check, no fetch and no increment. -/
def execute (w : Word) (s : State) : Result := exec (decode w) s

/-- One step (40_fetch_dispatch.md R110): the halt check, the fetch, the increment, then `Execute`. The outcome `Halted` is a
next state equal to the state, told from `Next` by `s.halt` (R111; log 6). -/
def step (s : State) : Host.Outcome State Fault Refusal :=
  if s.halt then .next s else execute s.fetchWord s.advancePc

/-- The state whose next step fetches the given word: it is stored at `pc`, where the step fetches, and halt is 0, without
which nothing is fetched. It stands for the load of a one-word program (log 3, log 12, log 21). -/
def State.withFetchWord (s : State) (nbits w : Nat) : State :=
  { s.memWrite s.pc (BitVec.ofNat 16 (w % 2 ^ nbits)) with halt := false }

end Sys2Proof.Machine
end

