-- ==== Sys2Proof/Machine/Accesses.lean ====
section
/-! DEFINITION. What each instruction may touch: the registers it reads and writes (10_state.md R24) and its memory accesses in
order (20_memory.md R67). Claims say that `exec` keeps to these; `exec` does not use them. -/

namespace Sys2Proof.Machine

/-- One memory access of the core. -/
inductive Access
  | read (addr : Word)
  | write (addr v : Word)
  deriving DecidableEq, Repr

/-- The registers each instruction's handler reads (10_state.md R24); the callback's own accesses are not here. -/
def regsRead : Instr → List RegId
  | .br _ _ => [.COND, .PC]
  | .addReg _ sr1 sr2 => [.gpr sr1, .gpr sr2]
  | .addImm _ sr1 _ => [.gpr sr1]
  | .ld _ _ => [.PC]
  | .st sr _ => [.PC, .gpr sr]
  | .jsrr baseReg => [.PC, .gpr baseReg]
  | .jsr _ => [.PC]
  | .andReg _ sr1 sr2 => [.gpr sr1, .gpr sr2]
  | .andImm _ sr1 _ => [.gpr sr1]
  | .ldr _ baseReg _ => [.gpr baseReg]
  | .str sr baseReg _ => [.gpr baseReg, .gpr sr]
  | .rti _ => []
  | .not _ sr => [.gpr sr]
  | .ldi _ _ => [.PC]
  | .sti sr _ => [.PC, .gpr sr]
  | .jmp baseReg => [.gpr baseReg]
  | .res _ => []
  | .lea _ _ => [.PC]
  | .trap _ => []

/-- The registers each instruction's handler writes (10_state.md R24); BR writes `pc` only when taken. -/
def regsWritten : Instr → List RegId
  | .br _ _ => [.PC]
  | .addReg dr _ _ => [.gpr dr, .COND]
  | .addImm dr _ _ => [.gpr dr, .COND]
  | .ld dr _ => [.gpr dr, .COND]
  | .st _ _ => []
  | .jsrr _ => [.gpr .R7, .PC]
  | .jsr _ => [.gpr .R7, .PC]
  | .andReg dr _ _ => [.gpr dr, .COND]
  | .andImm dr _ _ => [.gpr dr, .COND]
  | .ldr dr _ _ => [.gpr dr, .COND]
  | .str _ _ _ => []
  | .rti _ => []
  | .not dr _ => [.gpr dr, .COND]
  | .ldi dr _ => [.gpr dr, .COND]
  | .sti _ _ => []
  | .jmp _ => [.PC]
  | .res _ => []
  | .lea dr _ => [.gpr dr, .COND]
  | .trap _ => []

/-- The data accesses of each instruction's handler, in order, from the state it runs in (20_memory.md R67). TRAP's callback
makes its own, which are the `writeMem` entries of its list. -/
def dataAccesses (i : Instr) (s : State) : List Access :=
  match i with
  | .br _ _ => []
  | .addReg _ _ _ => []
  | .addImm _ _ _ => []
  | .ld _ offset9 => [.read (pcAddr9 s offset9)]
  | .st sr offset9 => [.write (pcAddr9 s offset9) (s.gpr sr)]
  | .jsrr _ => []
  | .jsr _ => []
  | .andReg _ _ _ => []
  | .andImm _ _ _ => []
  | .ldr _ baseReg offset6 => [.read (baseAddr s baseReg offset6)]
  | .str sr baseReg offset6 => [.write (baseAddr s baseReg offset6) (s.gpr sr)]
  | .rti _ => []
  | .not _ _ => []
  | .ldi _ offset9 => [.read (pcAddr9 s offset9), .read (indirectAddr s offset9)]
  | .sti sr offset9 => [.read (pcAddr9 s offset9), .write (indirectAddr s offset9) (s.gpr sr)]
  | .jmp _ => []
  | .res _ => []
  | .lea _ _ => []
  | .trap _ => []

/-- The core's accesses in one step, in order: the fetch first (20_memory.md R67); none when halted (40_fetch_dispatch.md
R111). -/
def stepAccesses (s : State) : List Access :=
  if s.halt then [] else .read s.pc :: dataAccesses (decode s.fetchWord) s.advancePc

end Sys2Proof.Machine
end

