-- ==== Sys2Proof/Safety.lean ====
section
/-! DEFINITION. Runs, the moves of the environment between steps, and the words the claims use: what stays the same, and what a
condition code says of a value. -/

namespace Sys2Proof.Machine

/-- What a run has come to (40_fetch_dispatch.md R116). -/
inductive RunStatus
  /-- The steps allowed are used up and the run has not ended. A step limit is no end of a run (92_eei_decisions.md D19). -/
  | running (s : State)
  /-- A step found `halt` = 1: the normal end, and its final state (R116 (a)). -/
  | halted (final : State)
  /-- A step faulted: the abnormal end (R116 (b)). -/
  | faulted (f : Fault)
  /-- A step was refused: the model gives no meaning. No step of this model does. -/
  | refused (r : Refusal)
  deriving DecidableEq, Repr

/-- The run from a state, of at most so many steps (40_fetch_dispatch.md R116). -/
def runFor : Nat → State → RunStatus
  | 0, s => if s.halt then .halted s else .running s
  | k + 1, s =>
    if s.halt then .halted s
    else
      match step s with
      | .next t => runFor k t
      | .fault f => .faulted f
      | .refused r => .refused r

/-- One move of a run: a step of the core, or the host raising `halt` between steps (60_exceptions.md R216, 92_eei_decisions.md
D7; log 7). Nothing else moves (D15). -/
inductive Move : State → State → Prop
  | core {s t : State} (h : step s = .next t) : Move s t
  | hostHalt (s : State) : Move s s.raiseHalt

/-- The states a run can come to from a state. -/
inductive Reaches : State → State → Prop
  | refl (s : State) : Reaches s s
  | tail {s t u : State} (h : Reaches s t) (m : Move t u) : Reaches s u

/-- The destination of the seven flag-setting instructions (10_state.md R30); no other instruction has one. -/
def flagDest : Instr → Option Reg
  | .addReg dr _ _ => some dr
  | .addImm dr _ _ => some dr
  | .andReg dr _ _ => some dr
  | .andImm dr _ _ => some dr
  | .not dr _ => some dr
  | .ld dr _ => some dr
  | .ldi dr _ => some dr
  | .ldr dr _ _ => some dr
  | .lea dr _ => some dr
  | .br _ _ => none
  | .st _ _ => none
  | .sti _ _ => none
  | .str _ _ _ => none
  | .jmp _ => none
  | .jsr _ => none
  | .jsrr _ => none
  | .rti _ => none
  | .res _ => none
  | .trap _ => none

/-- The sum of a base address and a signed offset, modulo 65536 (00_scope.md R10). -/
def wrapSum (base : Word) (offset : Int) : Nat := ((base.toNat + offset) % 65536).toNat

/-- The invariant of every move: memory is in its canonical form. -/
def State.canonical (s : State) : Bool := s.mem.wf

/-- COND holds a value the core can hold: that of reset, or a condition code (10_state.md R28, R38). -/
def condLegal (c : Word) : Prop := c = 0x0000#16 ∨ c = 0x0001#16 ∨ c = 0x0002#16 ∨ c = 0x0004#16

/-- The condition code `c` says the sign of `v` read as two's complement (10_state.md R28). -/
def FlagsMatch (v c : Word) : Prop :=
  v.toInt = 0 ∧ c = 0x0002#16 ∨ v.toInt < 0 ∧ c = 0x0004#16 ∨ 0 < v.toInt ∧ c = 0x0001#16

/-- Each of the ten registers outside the list reads as before. -/
def SameRegsExcept (written : List RegId) (s t : State) : Prop := ∀ r, r ∉ written → t.readReg r = s.readReg r

/-- Each memory cell outside the list reads as before. -/
def SameCellsExcept (written : List Word) (s t : State) : Prop := ∀ a, a ∉ written → t.memRead a = s.memRead a

/-- What only the environment changes is as before: the halt signal and the callback count. -/
def SameEnvironment (s t : State) : Prop := t.halt = s.halt ∧ t.trapCalls = s.trapCalls

/-- A flag-setting instruction's whole effect: `v` in `dr`, its condition code in COND, all else as before. -/
def ResultAndFlags (dr : Reg) (v : Word) (s t : State) : Prop :=
  t.readReg (.gpr dr) = v ∧ FlagsMatch v (t.readReg .COND) ∧ SameRegsExcept [.gpr dr, .COND] s t ∧ SameCellsExcept [] s t ∧
    SameEnvironment s t

/-- A store's whole effect: `v` in the cell at `a`, all else as before. -/
def StoredWord (a v : Word) (s t : State) : Prop :=
  t.memRead a = v ∧ SameCellsExcept [a] s t ∧ SameRegsExcept [] s t ∧ SameEnvironment s t

/-- A transfer's whole effect on everything but the registers listed: as before. -/
def OnlyRegsChange (written : List RegId) (s t : State) : Prop :=
  SameRegsExcept written s t ∧ SameCellsExcept [] s t ∧ SameEnvironment s t

end Sys2Proof.Machine
end

