-- ==== Sys2Proof/Certificates/Slice0/Obligations.lean ====
section
/-! DEFINITION. The statements for the provers, each after a rule of spec/. In every statement about `exec`, the state's `pc` is
the incremented program counter (40_fetch_dispatch.md R112), and each names what stays as it was. The numbers in the opcode
fields of the patterns are the spec's decision D1 (30_encoding.md R86; log 8). Where a statement says that nothing else changes,
that takes in halt, which the core never writes (10_state.md R34; log 12), and the model's own call counter (log 5). -/

open Sys2Proof Sys2Proof.Machine

/-! ### ADD, AND, NOT -/

/-- 41_alu.md R130: the pattern `0001 ddd aaa 0 xx bbb` is ADD register; it runs from every state; the sum is taken modulo
65536; COND gets the sum's code; nothing else changes. -/
def Obligations.AddRegisterSumsModulo65536 : Prop :=
  (∀ (dr sr1 sr2 : Reg) (u : BitVec 2),
    decode (0x1#4 ++ dr.toBits ++ sr1.toBits ++ 0#1 ++ u ++ sr2.toBits) = .addReg dr sr1 sr2) ∧
  ∀ (dr sr1 sr2 : Reg) (s : State), ∃ (t : State) (v : Word), exec (.addReg dr sr1 sr2) s = .next t ∧
    v.toNat = ((s.readReg (.gpr sr1)).toNat + (s.readReg (.gpr sr2)).toNat) % 65536 ∧ ResultAndFlags dr v s t

/-- 41_alu.md R131: the pattern `0001 ddd aaa 1 iiiii` is ADD immediate; the immediate is added as a signed number from -16 to
15, modulo 65536. -/
def Obligations.AddImmediateSumsModulo65536 : Prop :=
  (∀ (dr sr1 : Reg) (imm5 : BitVec 5),
    decode (0x1#4 ++ dr.toBits ++ sr1.toBits ++ 1#1 ++ imm5) = .addImm dr sr1 imm5) ∧
  ∀ (dr sr1 : Reg) (imm5 : BitVec 5) (s : State), ∃ (t : State) (v : Word), exec (.addImm dr sr1 imm5) s = .next t ∧
    v.toNat = wrapSum (s.readReg (.gpr sr1)) imm5.toInt ∧ ResultAndFlags dr v s t

/-- 41_alu.md R132: the pattern `0101 ddd aaa 0 xx bbb` is AND register, the bitwise AND of all 16 bits. -/
def Obligations.AndRegisterIsBitwise : Prop :=
  (∀ (dr sr1 sr2 : Reg) (u : BitVec 2),
    decode (0x5#4 ++ dr.toBits ++ sr1.toBits ++ 0#1 ++ u ++ sr2.toBits) = .andReg dr sr1 sr2) ∧
  ∀ (dr sr1 sr2 : Reg) (s : State), ∃ (t : State) (v : Word), exec (.andReg dr sr1 sr2) s = .next t ∧
    (∀ k : Fin 16, v.getLsbD k =
      ((s.readReg (.gpr sr1)).getLsbD k && (s.readReg (.gpr sr2)).getLsbD k)) ∧ ResultAndFlags dr v s t

/-- 41_alu.md R133: the pattern `0101 ddd aaa 1 iiiii` is AND immediate; the immediate's bit 4 stands in all higher bits of the
mask. -/
def Obligations.AndImmediateSignExtendsItsMask : Prop :=
  (∀ (dr sr1 : Reg) (imm5 : BitVec 5),
    decode (0x5#4 ++ dr.toBits ++ sr1.toBits ++ 1#1 ++ imm5) = .andImm dr sr1 imm5) ∧
  ∀ (dr sr1 : Reg) (imm5 : BitVec 5) (s : State), ∃ (t : State) (v : Word), exec (.andImm dr sr1 imm5) s = .next t ∧
    (∀ k : Fin 16, v.getLsbD k =
      ((s.readReg (.gpr sr1)).getLsbD k && (if k.val < 5 then imm5.getLsbD k else imm5.getLsbD 4))) ∧
    ResultAndFlags dr v s t

/-- 41_alu.md R134: the pattern `1001 ddd sss xxxxxx` is NOT; all 16 bits are inverted, which equals 65535 minus the operand. -/
def Obligations.NotInvertsAllBits : Prop :=
  (∀ (dr sr : Reg) (u : BitVec 6), decode (0x9#4 ++ dr.toBits ++ sr.toBits ++ u) = .not dr sr) ∧
  ∀ (dr sr : Reg) (s : State), ∃ (t : State) (v : Word), exec (.not dr sr) s = .next t ∧
    (∀ k : Fin 16, v.getLsbD k = !(s.readReg (.gpr sr)).getLsbD k) ∧
    v.toNat = 65535 - (s.readReg (.gpr sr)).toNat ∧ ResultAndFlags dr v s t

/-- 41_alu.md R135: the sum is at once the unsigned sum with the carry discarded and the two's-complement sum with the overflow
ignored, in both forms of ADD. -/
def Obligations.AddAgreesUnsignedAndSigned : Prop :=
  (∀ (dr sr1 sr2 : Reg) (s : State), ∃ t : State, exec (.addReg dr sr1 sr2) s = .next t ∧
    (t.readReg (.gpr dr)).toNat = ((s.readReg (.gpr sr1)).toNat + (s.readReg (.gpr sr2)).toNat) % 65536 ∧
    (t.readReg (.gpr dr)).toInt = ((s.readReg (.gpr sr1)).toInt + (s.readReg (.gpr sr2)).toInt).bmod 65536) ∧
  ∀ (dr sr1 : Reg) (imm5 : BitVec 5) (s : State), ∃ t : State, exec (.addImm dr sr1 imm5) s = .next t ∧
    (t.readReg (.gpr dr)).toInt = ((s.readReg (.gpr sr1)).toInt + imm5.toInt).bmod 65536

/-- 41_alu.md R136: NOT and then ADD 1 negates a register modulo 65536; NOT twice restores it. -/
def Obligations.NotThenAddOneNegates : Prop :=
  ∀ (r : Reg) (s : State), ∃ t u w : State, exec (.not r r) s = .next t ∧ exec (.addImm r r 1#5) t = .next u ∧
    exec (.not r r) t = .next w ∧
    (u.readReg (.gpr r)).toNat = (65536 - (s.readReg (.gpr r)).toNat) % 65536 ∧
    w.readReg (.gpr r) = s.readReg (.gpr r)

/-! ### Loads, stores and LEA -/

/-- 42_load_store.md R150: the pattern `0010 ddd iiiiiiiii` is LD, the load at `pc` plus the signed offset. -/
def Obligations.LoadReadsPcRelativeCell : Prop :=
  (∀ (dr : Reg) (offset9 : BitVec 9), decode (0x2#4 ++ dr.toBits ++ offset9) = .ld dr offset9) ∧
  ∀ (dr : Reg) (offset9 : BitVec 9) (s : State), ∃ (t : State) (a : Word), exec (.ld dr offset9) s = .next t ∧
    a.toNat = wrapSum s.pc offset9.toInt ∧ ResultAndFlags dr (s.memRead a) s t

/-- 42_load_store.md R151: the pattern `1010 ddd iiiiiiiii` is LDI; the cell at `pc` plus the signed offset holds the operand's
address. -/
def Obligations.LoadIndirectReadsThroughPointer : Prop :=
  (∀ (dr : Reg) (offset9 : BitVec 9), decode (0xA#4 ++ dr.toBits ++ offset9) = .ldi dr offset9) ∧
  ∀ (dr : Reg) (offset9 : BitVec 9) (s : State), ∃ (t : State) (a : Word), exec (.ldi dr offset9) s = .next t ∧
    a.toNat = wrapSum s.pc offset9.toInt ∧ ResultAndFlags dr (s.memRead (s.memRead a)) s t

/-- 42_load_store.md R152: the pattern `0110 ddd rrr iiiiii` is LDR, the load at the old value of the base register plus the
signed offset. -/
def Obligations.LoadRegisterReadsBasePlusOffset : Prop :=
  (∀ (dr baseReg : Reg) (offset6 : BitVec 6),
    decode (0x6#4 ++ dr.toBits ++ baseReg.toBits ++ offset6) = .ldr dr baseReg offset6) ∧
  ∀ (dr baseReg : Reg) (offset6 : BitVec 6) (s : State), ∃ (t : State) (a : Word),
    exec (.ldr dr baseReg offset6) s = .next t ∧
    a.toNat = wrapSum (s.readReg (.gpr baseReg)) offset6.toInt ∧ ResultAndFlags dr (s.memRead a) s t

/-- 42_load_store.md R153: the pattern `1110 ddd iiiiiiiii` is LEA; the address itself is the result and sets COND. -/
def Obligations.LoadEffectiveAddressSetsFlags : Prop :=
  (∀ (dr : Reg) (offset9 : BitVec 9), decode (0xE#4 ++ dr.toBits ++ offset9) = .lea dr offset9) ∧
  ∀ (dr : Reg) (offset9 : BitVec 9) (s : State), ∃ (t : State) (v : Word), exec (.lea dr offset9) s = .next t ∧
    v.toNat = wrapSum s.pc offset9.toInt ∧ dataAccesses (.lea dr offset9) s = [] ∧ ResultAndFlags dr v s t

/-- 42_load_store.md R154: the pattern `0011 sss iiiiiiiii` is ST; it writes the one cell at `pcAddr9`, which is `pc` plus the
signed offset, and nothing else. -/
def Obligations.StoreWritesPcRelativeCell : Prop :=
  (∀ (sr : Reg) (offset9 : BitVec 9), decode (0x3#4 ++ sr.toBits ++ offset9) = .st sr offset9) ∧
  ∀ (sr : Reg) (offset9 : BitVec 9) (s : State), ∃ t : State, exec (.st sr offset9) s = .next t ∧
    (pcAddr9 s offset9).toNat = wrapSum s.pc offset9.toInt ∧
    StoredWord (pcAddr9 s offset9) (s.readReg (.gpr sr)) s t

/-- 42_load_store.md R155: the pattern `1011 sss iiiiiiiii` is STI; it writes the one cell whose address the cell at `pc` plus
the signed offset held before the write. -/
def Obligations.StoreIndirectWritesThroughPointer : Prop :=
  (∀ (sr : Reg) (offset9 : BitVec 9), decode (0xB#4 ++ sr.toBits ++ offset9) = .sti sr offset9) ∧
  ∀ (sr : Reg) (offset9 : BitVec 9) (s : State), ∃ (t : State) (a : Word), exec (.sti sr offset9) s = .next t ∧
    a.toNat = wrapSum s.pc offset9.toInt ∧ indirectAddr s offset9 = s.memRead a ∧
    StoredWord (indirectAddr s offset9) (s.readReg (.gpr sr)) s t

/-- 42_load_store.md R156: the pattern `0111 sss rrr iiiiii` is STR; it writes the one cell at `baseAddr`, which is the base
register plus the signed offset. -/
def Obligations.StoreRegisterWritesBasePlusOffset : Prop :=
  (∀ (sr baseReg : Reg) (offset6 : BitVec 6),
    decode (0x7#4 ++ sr.toBits ++ baseReg.toBits ++ offset6) = .str sr baseReg offset6) ∧
  ∀ (sr baseReg : Reg) (offset6 : BitVec 6) (s : State), ∃ t : State, exec (.str sr baseReg offset6) s = .next t ∧
    (baseAddr s baseReg offset6).toNat = wrapSum (s.readReg (.gpr baseReg)) offset6.toInt ∧
    StoredWord (baseAddr s baseReg offset6) (s.readReg (.gpr sr)) s t

/-! ### Control transfer -/

/-- 43_control.md R170: the pattern `0000 ccc iiiiiiiii` is BR; instruction bit 11 tests COND's bit 2, bit 10 its bit 1, bit 9 its
bit 0 (the spec's decision D13; log 16); only `pc` may change. -/
def Obligations.BranchTestsMaskedConditionBits : Prop :=
  (∀ (condMask : BitVec 3) (offset9 : BitVec 9), decode (0x0#4 ++ condMask ++ offset9) = .br condMask offset9) ∧
  ∀ (condMask : BitVec 3) (offset9 : BitVec 9) (s : State), ∃ t : State, exec (.br condMask offset9) s = .next t ∧
    t.pc.toNat =
      (if (condMask.getLsbD 2 && s.cond.getLsbD 2) || (condMask.getLsbD 1 && s.cond.getLsbD 1) ||
          (condMask.getLsbD 0 && s.cond.getLsbD 0) then wrapSum s.pc offset9.toInt
       else s.pc.toNat) ∧
    OnlyRegsChange [.PC] s t

/-- 43_control.md R171 and R38 of 10_state.md: with COND 0, its value at reset, no BR is taken, mask 111 included; with mask 000
or with offset 0 a BR changes nothing (30_encoding.md R90); bits 15:3 of COND take no part; mask 111 is taken on each of the
three codes. The start value 0 of COND is the spec's decision D11 (log 14), the alignment of the mask its D13 (log 16). -/
def Obligations.BranchCornerCases : Prop :=
  (∀ (condMask : BitVec 3) (offset9 : BitVec 9) (s : State),
    exec (.br condMask offset9) (s.setCond 0x0000#16) = .next (s.setCond 0x0000#16)) ∧
  (∀ (offset9 : BitVec 9) (s : State), exec (.br 0#3 offset9) s = .next s) ∧
  (∀ (condMask : BitVec 3) (s : State), exec (.br condMask 0#9) s = .next s) ∧
  (∀ (condMask : BitVec 3) (offset9 : BitVec 9) (s : State) (high : BitVec 13) (low : BitVec 3), ∃ t u : State,
    exec (.br condMask offset9) (s.setCond (high ++ low)) = .next t ∧
    exec (.br condMask offset9) (s.setCond (0#13 ++ low)) = .next u ∧ t.pc = u.pc) ∧
  ∀ (offset9 : BitVec 9) (s : State) (v : Word), ∃ t : State,
    exec (.br 7#3 offset9) (s.setCond (condOf v)) = .next t ∧ t.pc.toNat = wrapSum s.pc offset9.toInt

/-- 43_control.md R172: the pattern `1100 xxx rrr xxxxxx` is JMP; `pc` gets the base register's value; nothing else changes. -/
def Obligations.JumpGoesToBaseRegister : Prop :=
  (∀ (u : BitVec 3) (baseReg : Reg) (u' : BitVec 6), decode (0xC#4 ++ u ++ baseReg.toBits ++ u') = .jmp baseReg) ∧
  ∀ (baseReg : Reg) (s : State), ∃ t : State, exec (.jmp baseReg) s = .next t ∧
    t.pc = s.readReg (.gpr baseReg) ∧ OnlyRegsChange [.PC] s t

/-- 43_control.md R173: the pattern `0100 1 iiiiiiiiiii` is JSR; R7 gets the incremented `pc`, which is also the base of the
target. -/
def Obligations.JsrLinksAndJumpsPcRelative : Prop :=
  (∀ offset11 : BitVec 11, decode (0x4#4 ++ 1#1 ++ offset11) = .jsr offset11) ∧
  ∀ (offset11 : BitVec 11) (s : State), ∃ t : State, exec (.jsr offset11) s = .next t ∧
    t.readReg (.gpr .R7) = s.pc ∧ t.pc.toNat = wrapSum s.pc offset11.toInt ∧ OnlyRegsChange [.gpr .R7, .PC] s t

/-- 43_control.md R174: the pattern `0100 0 rr xxxxxxxxx` is JSR in register mode, its base the two-bit field `rr`, one of R0 to
R3 (the spec's decision D12; log 15); R7 gets the incremented `pc` and `pc` the base register's value. -/
def Obligations.JsrrLinksAndJumpsToRegister : Prop :=
  (∀ (rr : BitVec 2) (u : BitVec 9), decode (0x4#4 ++ 0#1 ++ rr ++ u) = .jsrr (Reg.ofBits (0#1 ++ rr))) ∧
  ∀ (baseReg : Reg) (s : State), baseReg.lowFour = true → ∃ t : State, exec (.jsrr baseReg) s = .next t ∧
    t.readReg (.gpr .R7) = s.pc ∧ t.pc = s.readReg (.gpr baseReg) ∧ t.readReg (.gpr baseReg) = s.readReg (.gpr baseReg) ∧
    OnlyRegsChange [.gpr .R7, .PC] s t

/-- 43_control.md R176: after either form of JSR a JMP through R7 returns to the incremented `pc` of the call. -/
def Obligations.SubroutineCallReturns : Prop :=
  (∀ (offset11 : BitVec 11) (s : State), ∃ t u : State, exec (.jsr offset11) s = .next t ∧ exec (.jmp .R7) t = .next u ∧
    u.pc = s.pc) ∧
  ∀ (baseReg : Reg) (s : State), ∃ t u : State, exec (.jsrr baseReg) s = .next t ∧ exec (.jmp .R7) t = .next u ∧
    u.pc = s.pc

/-- 70_reset_and_hazards.md R236: an offset counted from the address of the instruction plus 1 reaches its target, in each of the
seven PC-relative instructions run by a whole step. -/
def Obligations.OffsetsCountFromNextAddress : Prop :=
  ∀ (s t : State) (target : Word), s.halt = false → step s = .next t →
    (∀ (dr : Reg) (off : BitVec 9), decode (s.memRead s.pc) = .lea dr off →
      sext off = target - (s.pc + 1#16) → t.gpr dr = target) ∧
    (∀ (dr : Reg) (off : BitVec 9), decode (s.memRead s.pc) = .ld dr off →
      sext off = target - (s.pc + 1#16) → t.gpr dr = s.memRead target) ∧
    (∀ (dr : Reg) (off : BitVec 9), decode (s.memRead s.pc) = .ldi dr off →
      sext off = target - (s.pc + 1#16) → t.gpr dr = s.memRead (s.memRead target)) ∧
    (∀ (sr : Reg) (off : BitVec 9), decode (s.memRead s.pc) = .st sr off →
      sext off = target - (s.pc + 1#16) → t.memRead target = s.gpr sr) ∧
    (∀ (sr : Reg) (off : BitVec 9), decode (s.memRead s.pc) = .sti sr off →
      sext off = target - (s.pc + 1#16) → t.memRead (s.memRead target) = s.gpr sr) ∧
    (∀ (condMask : BitVec 3) (off : BitVec 9), decode (s.memRead s.pc) = .br condMask off →
      sext off = target - (s.pc + 1#16) → brTaken condMask s.cond = true → t.pc = target) ∧
    (∀ off : BitVec 11, decode (s.memRead s.pc) = .jsr off →
      sext off = target - (s.pc + 1#16) → t.pc = target ∧ t.gpr .R7 = s.pc + 1#16)

/-! ### TRAP, RTI, RES -/

/-- 44_system.md R190: the pattern `1111 xxxx vvvvvvvv` is TRAP, and it runs from every state; the next state is what the
callback's writes make of the state at the call, with the model's own call counter moved on, and the core does nothing else;
the callback sees `pc` as the TRAP's address plus 1. That the callback is a list of writes picked by a counter is the model's choice (log 4, log 5). -/
def Obligations.TrapRoutesVectorToCallback : Prop :=
  (∀ (u : BitVec 4) (vec : BitVec 8), decode (0xF#4 ++ u ++ vec) = .trap vec) ∧
  (∀ (vec : BitVec 8) (s : State), ∃ t : State, exec (.trap vec) s = .next t ∧
    t = { s with trapCalls := s.trapCalls + 1 }.envAccesses (Config.trapCallback s.trapCalls vec s.view)) ∧
  ∀ s : State, s.advancePc.view.readReg .PC = s.pc + 1#16

/-- 60_exceptions.md R216, row "trap callback", and 44_system.md R193: what a list of the environment's writes does. A register
or cell it does not name is as before; one it names holds the value written last; halt is raised when the list raises it, and
never lowered. The list form is the model's choice (log 4). -/
def Obligations.EnvironmentWritesActInOrder : Prop :=
  ∀ (s : State) (l : List EnvAccess),
    (∀ r, (∀ v, EnvAccess.writeReg r v ∉ l) → (s.envAccesses l).readReg r = s.readReg r) ∧
    (∀ a, (∀ v, EnvAccess.writeMem a v ∉ l) → (s.envAccesses l).memRead a = s.memRead a) ∧
    (∀ r v l', (∀ v', EnvAccess.writeReg r v' ∉ l') →
      (s.envAccesses (l ++ [.writeReg r v] ++ l')).readReg r = v) ∧
    (∀ a v l', (∀ v', EnvAccess.writeMem a v' ∉ l') →
      (s.envAccesses (l ++ [.writeMem a v] ++ l')).memRead a = v) ∧
    (s.envAccesses l).halt = (s.halt || decide (EnvAccess.raiseHalt ∈ l)) ∧
    (s.envAccesses l).trapCalls = s.trapCalls

/-- 44_system.md R193 and 70_reset_and_hazards.md R240: a callback may change anything. From a state with canonical memory some
list of writes leads to ANY registers, `pc`, COND, memory and halt, but that halt is not lowered (the spec's decision D7; log
12). So the list form of the model's callback (log 4) shuts no outcome out. -/
def Obligations.EnvironmentCanMakeAnyState : Prop :=
  ∀ s t : State, s.canonical = true → t.canonical = true → (s.halt = true → t.halt = true) → t.trapCalls = s.trapCalls →
    ∃ l : List EnvAccess, s.envAccesses l = t

/-- 44_system.md R191 and R192: the 4096 words of each opcode raise the fault from every state, carrying the word, the address
`pc - 1` and the state unchanged. -/
def Obligations.RtiAndResAlwaysFault : Prop :=
  (∀ u : BitVec 12, decode (0x8#4 ++ u) = .rti u) ∧ (∀ u : BitVec 12, decode (0xD#4 ++ u) = .res u) ∧
  (∀ (u : BitVec 12) (s : State),
    exec (.rti u) s = .fault (.unimplementedInstruction .RTI (0x8#4 ++ u) (s.pc - 1#16) s)) ∧
  ∀ (u : BitVec 12) (s : State),
    exec (.res u) s = .fault (.unimplementedInstruction .RES (0xD#4 ++ u) (s.pc - 1#16) s)

/-- 60_exceptions.md R200: a step faults exactly when it is not halted and bits 15:12 of the fetched word are 8 or 13 (the spec's
decision D1; log 8); nothing else stops a step. -/
def Obligations.OnlyRtiAndResFault : Prop :=
  ∀ s : State,
    ((∃ f, step s = .fault f) ↔
      s.halt = false ∧ ((s.memRead s.pc).toNat / 4096 = 8 ∨ (s.memRead s.pc).toNat / 4096 = 13)) ∧
    ∀ r, step s ≠ .refused r

/-- 60_exceptions.md R201 and R204, 40_fetch_dispatch.md R117: the report of a whole step's fault: the cause of its opcode, the
word, its own address, and the state before the step with `pc` incremented and nothing else changed. What the report carries
and `pc` at the fault are the spec's decisions D5 and D4; that it carries the state is the model's choice (log 11). -/
def Obligations.FaultReportsWordAndAddress : Prop :=
  ∀ (s : State) (cause : FaultCause) (ir addr : Word) (at' : State),
    step s = .fault (.unimplementedInstruction cause ir addr at') →
      (cause = .RTI ↔ ir.toNat / 4096 = 8) ∧ ir = s.memRead s.pc ∧ addr = s.pc ∧ at'.pc = s.pc + 1#16 ∧
        at' = s.setPc (s.pc + 1#16)

/-! ### The register file, COND and memory -/

/-- 10_state.md R20: any register read back after a write gives the low 16 bits of what was written; no other register, no cell
and no signal changes, nor the model's own call counter (log 5). Before any write it gives its reset value, 0x0000 for each of
the ten (R37, 70_reset_and_hazards.md R230): COND = 0 is the spec's decision D11 (log 14), and that `State.reset` is the moment
before the load, where `pc` too is 0, is DEDUCED (log 3). -/
def Obligations.RegisterFileReadsBackWrites : Prop :=
  (∀ (s : State) (r : RegId) (v : Nat),
    ((s.writeRegNat r v).readReg r).toNat = v % 65536 ∧ OnlyRegsChange [r] s (s.writeRegNat r v)) ∧
  ∀ r : RegId, State.reset.readReg r = 0x0000#16

/-- 10_state.md R29: the Flag Evaluator's three cases, its overwriting of all of COND, and that the core writes COND by it alone. -/
def Obligations.FlagEvaluatorSetsCond : Prop :=
  (∀ (s : State) (i : Reg),
    (s.setcc i).readReg .COND =
      (if (s.readReg (.gpr i)).toNat = 0 then 0x0002#16
       else if 0x8000 ≤ (s.readReg (.gpr i)).toNat then 0x0004#16 else 0x0001#16) ∧
    OnlyRegsChange [.COND] s (s.setcc i)) ∧
  ∀ (ins : Instr) (s t : State), (∀ vec, ins ≠ .trap vec) → exec ins s = .next t →
    t.cond = s.cond ∨ ∃ i, t.cond = (t.setcc i).cond

/-- 10_state.md R30: after ADD, AND, NOT, LD, LDI, LDR and LEA, COND is the code of the destination's final value; the other
instructions of the core leave it; TRAP's callback alone may write it; no instruction but BR reads it. That the callback is a
list of writes picked by a counter is the model's choice (log 4, log 5). -/
def Obligations.FlagSettersAloneWriteCond : Prop :=
  (∀ (i : Instr) (s t : State) (dr : Reg), flagDest i = some dr → exec i s = .next t → FlagsMatch (t.gpr dr) t.cond) ∧
  (∀ (i : Instr) (s t : State), flagDest i = none → (∀ vec, i ≠ .trap vec) → exec i s = .next t → t.cond = s.cond) ∧
  (∀ (vec : BitVec 8) (s : State), ∃ t, exec (.trap vec) s = .next t ∧
    t.cond = (s.envAccesses (Config.trapCallback s.trapCalls vec s.view)).cond) ∧
  ∀ (i : Instr) (s t : State) (c : Word), i.opcode ≠ .BR → i.opcode ≠ .TRAP → exec i s = .next t →
    ∃ t', exec i (s.setCond c) = .next t' ∧ (∀ r, r ≠ .COND → t'.readReg r = t.readReg r) ∧
      (∀ a, t'.memRead a = t.memRead a)

/-- 20_memory.md R51 and R52: a cell reads as what was written last; a write changes no other cell and no register. -/
def Obligations.MemoryReadsBackWrites : Prop :=
  ∀ (s : State) (a v : Word), StoredWord a v s (s.memWrite a v)

/-- 00_scope.md R11: sign extension from 1 to 16 bits, bit by bit and as a number. -/
def Obligations.SignExtensionReplicatesTopBit : Prop :=
  ∀ (n : Nat) (v : BitVec n), 1 ≤ n → n ≤ 16 →
    (∀ k : Fin 16, (sext v).getLsbD k = if k.val < n then v.getLsbD k else v.getLsbD (n - 1)) ∧
    (sext v).toNat = (if v.toNat < 2 ^ (n - 1) then v.toNat else v.toNat + 65536 - 2 ^ n)

/-- 20_memory.md R53 and 10_state.md R26: every address an instruction forms is its sum modulo 65536; LDI and STI use the pointer
as it is; after 0xFFFF comes 0x0000. -/
def Obligations.AddressesWrapModulo65536 : Prop :=
  (∀ (s : State) (off : BitVec 9), (pcAddr9 s off).toNat = wrapSum s.pc off.toInt ∧
    indirectAddr s off = s.memRead (pcAddr9 s off)) ∧
  (∀ (s : State) (off : BitVec 11), (pcAddr11 s off).toNat = wrapSum s.pc off.toInt) ∧
  (∀ (s : State) (b : Reg) (off : BitVec 6), (baseAddr s b off).toNat = wrapSum (s.readReg (.gpr b)) off.toInt) ∧
  (∀ s : State, s.advancePc.pc.toNat = (s.pc.toNat + 1) % 65536) ∧
  ∀ s : State, (s.setPc 0xFFFF#16).advancePc.pc = 0x0000#16

/-- 20_memory.md R55: no instruction but ST, STI, STR and TRAP changes a cell, and each of the three stores writes the one cell
of its access list. -/
def Obligations.OnlyStoresChangeMemory : Prop :=
  (∀ (i : Instr) (s t : State), i.opcode ≠ .ST → i.opcode ≠ .STI → i.opcode ≠ .STR → i.opcode ≠ .TRAP →
    exec i s = .next t → ∀ a, t.memRead a = s.memRead a) ∧
  ∀ (i : Instr) (s : State), i.opcode = .ST ∨ i.opcode = .STI ∨ i.opcode = .STR →
    ∃ (t : State) (a v : Word), exec i s = .next t ∧ Access.write a v ∈ dataAccesses i s ∧
      (∀ b w, Access.write b w ∈ dataAccesses i s → b = a ∧ w = v) ∧ StoredWord a v s t

/-- 10_state.md R24: an instruction of the core changes no register outside its row of the table. Nor does it change halt, which
the core only reads (R34, the spec's decision D7, log 12), nor the callback count, a field of the model's own (log 5). -/
def Obligations.HandlersKeepRegisterFrame : Prop :=
  ∀ (i : Instr) (s t : State), (∀ vec, i ≠ .trap vec) → exec i s = .next t →
    SameRegsExcept (regsWritten i) s t ∧ SameEnvironment s t

/-- 10_state.md R24 and 20_memory.md R67: what an instruction of the core does depends only on the registers of its row and the
cells it reads. Two states that agree on those take it alike, whatever else they hold: the registers written get the same
values and the accesses are the same. -/
def Obligations.HandlersDependOnlyOnTheirReads : Prop :=
  ∀ (i : Instr) (s s' t : State), (∀ vec, i ≠ .trap vec) → (∀ r ∈ regsRead i, s'.readReg r = s.readReg r) →
    (∀ a, Access.read a ∈ dataAccesses i s → s'.memRead a = s.memRead a) → exec i s = .next t →
    ∃ t', exec i s' = .next t' ∧ dataAccesses i s' = dataAccesses i s ∧ ∀ r ∈ regsWritten i, t'.readReg r = t.readReg r

/-! ### The step, reset and the run -/

/-- 40_fetch_dispatch.md R110: the halted step leaves the state (its outcome `Halted`, told from `Next` by the halt bit: the
model's choice, log 6); every other step runs the instruction decoded from the cell at `pc`, on the state with `pc` one
further. -/
def Obligations.StepRunsDecodedInstruction : Prop :=
  ∀ s : State, (s.halt = true → step s = .next s) ∧
    (s.halt = false → step s = exec (decode (s.memRead s.pc)) (s.setPc (s.pc + 1#16)))

/-- 40_fetch_dispatch.md R111 and 60_exceptions.md R205: a halted machine fetches nothing and changes nothing, whatever the word
at `pc`; a run that finds it has ended in that state; no later move of the run changes it. -/
def Obligations.HaltedRunNeverChanges : Prop :=
  ∀ s : State, s.halt = true →
    (∀ m : Memory, step { s with mem := m } = .next { s with mem := m }) ∧ stepAccesses s = [] ∧
    (∀ k, runFor k s = .halted s) ∧ ∀ t, Reaches s t → t = s

/-- 10_state.md R27: a step of an instruction that does not transfer control ends with `pc` one further, modulo 65536; so does a
BR whose test fails. -/
def Obligations.SequentialFlowIsFetchIncrement : Prop :=
  ∀ s t : State, s.halt = false → step s = .next t →
    ((decode (s.memRead s.pc)).opcode ∉ [Opcode.BR, .JMP, .JSR, .TRAP] → t.pc.toNat = (s.pc.toNat + 1) % 65536) ∧
    ∀ m off, decode (s.memRead s.pc) = .br m off → brTaken m s.cond = false → t.pc.toNat = (s.pc.toNat + 1) % 65536

/-- 20_memory.md R65: the word an instruction stores is the word a next fetch from that cell returns and runs (the spec's
decisions D3 and D17; log 10). -/
def Obligations.StoreIsSeenByNextFetch : Prop :=
  ∀ (s t : State) (a v : Word), s.halt = false → Access.write a v ∈ stepAccesses s → step s = .next t → t.pc = a →
    t.halt = false ∧ t.fetchWord = v ∧ step t = execute v t.advancePc

/-- 70_reset_and_hazards.md R232, with R230 and 10_state.md R37: the loader sets `pc` and the cells, for every entry address and
every image, and neither COND nor a general register. At creation the ten registers are 0 and halt is 0, and halt is still 0
after the load: COND = 0 is the spec's decision D11 (log 14), halt = 0 its decision D7 (log 12), and that `State.reset` is the
moment before the load, with `pc` 0, is DEDUCED (log 3). The loaded memory is canonical, a form of the model's choice (log 20). -/
def Obligations.LoaderSetsPcAndMemoryOnly : Prop :=
  (∀ r : RegId, State.reset.readReg r = 0x0000#16) ∧ State.reset.halt = false ∧
  ∀ (entryPc : Word) (initMem : Word → Word),
    (State.loaded entryPc initMem).pc = entryPc ∧ (∀ a, (State.loaded entryPc initMem).memRead a = initMem a) ∧
    (∀ r, r ≠ .PC → (State.loaded entryPc initMem).readReg r = 0x0000#16) ∧
    (State.loaded entryPc initMem).halt = false ∧ (State.loaded entryPc initMem).canonical = true

/-- Every step keeps memory in its canonical form: TRAP's callback included. The form is the model's choice (log 20). -/
def Obligations.StepKeepsMemoryCanonical : Prop :=
  ∀ s t : State, s.canonical = true → step s = .next t → t.canonical = true

/-- Memory at reset is in its canonical form, with nothing listed (log 2, log 20). -/
def Obligations.ResetMemoryIsCanonical : Prop :=
  State.reset.canonical = true ∧ State.reset.mem = []

/-- Two canonical memories that read alike at every address are equal lists: equal memories are equal data (log 20). -/
def Obligations.CanonicalMemoriesAreExtensional : Prop :=
  ∀ m m' : Memory, m.wf = true → m'.wf = true → (∀ a : Word, m.read a.toNat = m'.read a.toNat) → m = m'

/-- 10_state.md R28 and R38: a step that is not a TRAP keeps COND one of 0 (its value at reset, the spec's decision D11; log 14),
POS, ZRO, NEG; reset has it. -/
def Obligations.StepKeepsCondLegal : Prop :=
  condLegal State.reset.cond ∧
  ∀ s t : State, condLegal s.cond → (decode (s.memRead s.pc)).opcode ≠ .TRAP → step s = .next t → condLegal t.cond

/-- 40_fetch_dispatch.md R116 and 60_exceptions.md R203 (the spec's decision D19; log 19): an ended run stays ended as it was,
however many more steps are allowed; a halted run's final state is a halted one; a longer run is the shorter one continued. -/
def Obligations.EndedRunStaysEnded : Prop :=
  ∀ (k j : Nat) (s : State),
    (∀ t, runFor k s = .halted t → t.halt = true ∧ runFor (k + j) s = .halted t) ∧
    (∀ f, runFor k s = .faulted f → runFor (k + j) s = .faulted f) ∧
    (∀ t, runFor k s = .running t → t.halt = false ∧ runFor (k + j) s = runFor j t)

/-- The one-word load (log 3): a state given a word to fetch takes its next step by running exactly that word's instruction. -/
def Obligations.FetchWordIsFetchedNext : Prop :=
  ∀ (s : State) (w : Word),
    step (s.withFetchWord 16 w.toNat) = exec (decode w) (s.withFetchWord 16 w.toNat).advancePc ∧
    (∀ a, a ≠ s.pc → (s.withFetchWord 16 w.toNat).memRead a = s.memRead a) ∧
    (∀ r, (s.withFetchWord 16 w.toNat).readReg r = s.readReg r)

/-! ### Encoding -/

/-- 30_encoding.md R82 and R87: words written out from the patterns decode to their instructions (95_test_vectors.md). -/
def Obligations.WrittenOutWordsDecode : Prop :=
  decode 0b0000011111111101#16 = .br 0b011#3 0b111111101#9 ∧ decode 0b0001000001111101#16 = .addImm .R0 .R1 0b11101#5 ∧
  decode 0b1010000000000001#16 = .ldi .R0 1#9 ∧ decode 0b0100100000000101#16 = .jsr 5#11 ∧
  decode 0b0100010000000000#16 = .jsrr .R2 ∧ decode 0b0111010001000001#16 = .str .R2 .R1 1#6 ∧
  decode 0b1111111100100101#16 = .trap 0x25#8 ∧ decode 0b1101101010111100#16 = .res 0xABC#12

/-- 30_encoding.md R82, R83, R84: for every well-formed instruction, with every operand at every value, decoding its encoding
gives it back (the numbering is the spec's decision D1; log 8). -/
def Obligations.DecodeInvertsEncode : Prop :=
  ∀ i : Instr, i.wf = true → decode (encode i) = i

/-- 30_encoding.md R88 and R93: every word decodes to a well-formed instruction, and encoding that gives the word back with its
unused bits 0 (the spec's decision D2; log 9). -/
def Obligations.EncodeClearsUnusedBits : Prop :=
  ∀ w : Word, (decode w).wf = true ∧ encode (decode w) = w &&& usedBits (decode w)

/-- 30_encoding.md R91: every word matches exactly one row of the opcode map, and it is the row of the instruction it decodes
to. -/
def Obligations.EveryWordMatchesOneRow : Prop :=
  ∀ w : Word, (formRows.filter (fun r => r.matches w)) = [formRow (decode w)]

/-- 30_encoding.md R88 (the spec's decision D2; log 9): two words of one form that differ only in unused bits are the same
instruction and do the same from every state. -/
def Obligations.UnusedBitsAreIgnored : Prop :=
  ∀ w w' : Word, (formRow (decode w)).matches w' = true → w &&& usedBits (decode w) = w' &&& usedBits (decode w) →
    decode w' = decode w ∧ ∀ s : State, execute w' s = execute w s
end

