-- ==== Sys2Proof/Laws/Decode.lean ====
section
/-! SUPPORT. The small lemmas of the field tables of Decode.lean. -/

namespace Sys2Proof

@[simp] theorem Opcode.ofBits_toBits (o : Opcode) : Opcode.ofBits o.toBits = o := by cases o <;> rfl

@[simp] theorem Reg.ofBits_toBits (r : Reg) : Reg.ofBits r.toBits = r := by cases r <;> rfl

theorem Reg.toBits_ofBits (b : BitVec 3) : (Reg.ofBits b).toBits = b := by
  revert b; decide

theorem Opcode.toBits_ofBits (b : BitVec 4) : (Opcode.ofBits b).toBits = b := by
  revert b; decide

/-- A two-bit field names one of R0 to R3. -/
theorem jsrBaseField_lowFour (w : Word) : (jsrBaseField w).lowFour = true := by
  have : ∀ b : BitVec 2, (Reg.ofBits (b.zeroExtend 3)).lowFour = true := by decide
  exact this _

end Sys2Proof
end

