-- ==== Sys2Proof/Laws/Memory.lean ====
section
/-! SUPPORT. The laws of memory as a list of cells: read after write, and that every operation keeps the canonical form. -/

namespace Sys2Proof.Machine

/-! ### Reading -/

theorem Memory.read_erase_same (m : Memory) (a : Nat) : Memory.read (Memory.erase m a) a = Config.unlistedCell := by
  induction m with
  | nil => rfl
  | cons c rest ih =>
    obtain ⟨k, v⟩ := c
    by_cases h : k = a <;> simp [Memory.erase, Memory.read, h, ih]

theorem Memory.read_erase_other {a b : Nat} (h : b ≠ a) (m : Memory) : Memory.read (Memory.erase m a) b = Memory.read m b := by
  induction m with
  | nil => rfl
  | cons c rest ih =>
    obtain ⟨k, v⟩ := c
    by_cases e : k = a
    · simp [Memory.erase, Memory.read, e, ih, h.symm]
    · rw [Memory.erase, if_neg e, Memory.read, Memory.read, ih]

/-- The list names no entry for `a`. -/
def Memory.lacks (m : Memory) (a : Nat) : Prop := ∀ c ∈ m, c.1 ≠ a

theorem Memory.erase_lacks (m : Memory) (a : Nat) : Memory.lacks (Memory.erase m a) a := by
  induction m with
  | nil => simp [Memory.lacks, Memory.erase]
  | cons c rest ih =>
    obtain ⟨k, v⟩ := c
    by_cases e : k = a
    · simpa [Memory.erase, e] using ih
    · intro d hd
      simp only [Memory.erase, e, if_false, List.mem_cons] at hd
      rcases hd with rfl | hd
      · exact e
      · exact ih d hd

theorem Memory.read_insert_same {m : Memory} {a : Nat} (h : Memory.lacks m a) (v : Word) :
    Memory.read (Memory.insert m a v) a = v := by
  induction m with
  | nil => simp [Memory.insert, Memory.read]
  | cons c rest ih =>
    obtain ⟨k, w⟩ := c
    have hk : k ≠ a := h (k, w) (by simp)
    have hr : Memory.lacks rest a := fun d hd => h d (by simp [hd])
    by_cases e : a < k <;> simp [Memory.insert, Memory.read, e, hk, ih hr]

theorem Memory.read_insert_other {a b : Nat} (h : b ≠ a) (m : Memory) (v : Word) :
    Memory.read (Memory.insert m a v) b = Memory.read m b := by
  induction m with
  | nil => simp [Memory.insert, Memory.read, h.symm]
  | cons c rest ih =>
    obtain ⟨k, w⟩ := c
    by_cases e : a < k
    · simp [Memory.insert, Memory.read, e, h.symm]
    · rw [Memory.insert, if_neg e, Memory.read, Memory.read, ih]

@[simp] theorem Memory.read_write_same (m : Memory) (a : Nat) (v : Word) : Memory.read (Memory.write m a v) a = v := by
  unfold Memory.write
  split
  · rename_i h; rw [h]; exact Memory.read_erase_same m a
  · exact Memory.read_insert_same (Memory.erase_lacks m a) v

theorem Memory.read_write_other {a b : Nat} (h : b ≠ a) (m : Memory) (v : Word) :
    Memory.read (Memory.write m a v) b = Memory.read m b := by
  unfold Memory.write
  split
  · exact Memory.read_erase_other h m
  · rw [Memory.read_insert_other h, Memory.read_erase_other h]

/-! ### The canonical form -/

theorem Memory.wfFrom_cons {low k : Nat} {v : Word} {rest : Memory} :
    Memory.wfFrom low ((k, v) :: rest) = true ↔
      low ≤ k ∧ k < memSize ∧ v ≠ Config.unlistedCell ∧ Memory.wfFrom (k + 1) rest = true := by
  simp [Memory.wfFrom, and_assoc]

theorem Memory.wfFrom_mono {low low' : Nat} (h : low ≤ low') {m : Memory} (w : Memory.wfFrom low' m = true) :
    Memory.wfFrom low m = true := by
  cases m with
  | nil => rfl
  | cons c rest =>
    obtain ⟨k, v⟩ := c
    rw [Memory.wfFrom_cons] at w ⊢
    exact ⟨by omega, w.2⟩

theorem Memory.wfFrom_erase {low : Nat} {m : Memory} (w : Memory.wfFrom low m = true) (a : Nat) :
    Memory.wfFrom low (Memory.erase m a) = true := by
  induction m generalizing low with
  | nil => rfl
  | cons c rest ih =>
    obtain ⟨k, v⟩ := c
    rw [Memory.wfFrom_cons] at w
    obtain ⟨h1, h2, h3, h4⟩ := w
    by_cases e : k = a
    · simpa [Memory.erase, e] using Memory.wfFrom_mono (by omega) (ih h4)
    · simpa [Memory.erase, e, Memory.wfFrom_cons] using ⟨h1, h2, h3, ih h4⟩

theorem Memory.wfFrom_insert {low a : Nat} {m : Memory} {v : Word} (w : Memory.wfFrom low m = true) (l : Memory.lacks m a)
    (ha : low ≤ a) (hs : a < memSize) (hv : v ≠ Config.unlistedCell) : Memory.wfFrom low (Memory.insert m a v) = true := by
  induction m generalizing low with
  | nil => simpa [Memory.insert, Memory.wfFrom_cons] using ⟨ha, hs, hv, rfl⟩
  | cons c rest ih =>
    obtain ⟨k, u⟩ := c
    rw [Memory.wfFrom_cons] at w
    obtain ⟨h1, h2, h3, h4⟩ := w
    have hk : k ≠ a := l (k, u) (by simp)
    by_cases e : a < k
    · rw [Memory.insert, if_pos e, Memory.wfFrom_cons, Memory.wfFrom_cons]
      exact ⟨ha, hs, hv, by omega, h2, h3, h4⟩
    · rw [Memory.insert, if_neg e, Memory.wfFrom_cons]
      exact ⟨h1, h2, h3, ih h4 (fun d hd => l d (by simp [hd])) (by omega)⟩

/-- A store keeps the canonical form. -/
theorem Memory.wf_write {m : Memory} (w : m.wf = true) {a : Nat} (h : a < memSize) (v : Word) : (Memory.write m a v).wf = true := by
  unfold Memory.wf Memory.write at *
  split
  · exact Memory.wfFrom_erase w a
  · rename_i hv
    exact Memory.wfFrom_insert (Memory.wfFrom_erase w a) (Memory.erase_lacks m a) (Nat.zero_le _) h hv

theorem Memory.wfFrom_tabulate (f : Word → Word) (n a low : Nat) (hl : low ≤ a) (h : a + n ≤ memSize) :
    Memory.wfFrom low (Memory.tabulate f n a) = true := by
  induction n generalizing a low with
  | zero => rfl
  | succ n ih =>
    unfold Memory.tabulate
    split
    · exact ih (a + 1) low (by omega) (by omega)
    · rename_i hv
      exact Memory.wfFrom_cons.2 ⟨hl, by omega, hv, ih (a + 1) (a + 1) (Nat.le_refl _) (by omega)⟩

/-- The loader's memory is in the canonical form. -/
theorem Memory.wf_ofFn (f : Word → Word) : (Memory.ofFn f).wf = true :=
  Memory.wfFrom_tabulate f memSize 0 0 (Nat.le_refl _) (by omega)

/-- The memory at reset is in the canonical form. -/
theorem reset_mem_wf : State.reset.mem.wf = true := rfl

theorem Memory.read_tabulate_below (f : Word → Word) (n a b : Nat) (h : b < a) :
    Memory.read (Memory.tabulate f n a) b = Config.unlistedCell := by
  induction n generalizing a with
  | zero => rfl
  | succ n ih =>
    unfold Memory.tabulate
    split
    · exact ih (a + 1) (by omega)
    · rw [Memory.read, if_neg (by omega)]; exact ih (a + 1) (by omega)

theorem Memory.read_tabulate (f : Word → Word) (n a b : Nat) (h1 : a ≤ b) (h2 : b < a + n) :
    Memory.read (Memory.tabulate f n a) b = f (BitVec.ofNat 16 b) := by
  induction n generalizing a with
  | zero => omega
  | succ n ih =>
    unfold Memory.tabulate
    by_cases e : a = b
    · subst e
      split
      · rename_i hv; rw [hv]; exact Memory.read_tabulate_below f n (a + 1) a (by omega)
      · simp [Memory.read]
    · split
      · exact ih (a + 1) (by omega) (by omega)
      · rw [Memory.read, if_neg e]; exact ih (a + 1) (by omega) (by omega)

end Sys2Proof.Machine
end

