-- ==== Sys2Proof/Laws/State.lean ====
section
/-! SUPPORT. The small lemmas of State: each update read back at each field and at each register, so that no later proof
unfolds a record update. -/

namespace Sys2Proof.Machine

/-! ### The eight registers -/

@[simp] theorem Gprs.get_set_same (g : Gprs) (i : Reg) (v : Word) : (g.set i v).get i = v := by
  cases i <;> rfl

theorem Gprs.get_set_other {i j : Reg} (h : j ≠ i) (g : Gprs) (v : Word) : (g.set i v).get j = g.get j := by
  cases i <;> cases j <;> first | rfl | exact absurd rfl h

theorem Gprs.ext_get {g h : Gprs} (e : ∀ i, g.get i = h.get i) : g = h := by
  have e0 := e .R0; have e1 := e .R1; have e2 := e .R2; have e3 := e .R3
  have e4 := e .R4; have e5 := e .R5; have e6 := e .R6; have e7 := e .R7
  cases g; cases h
  simp only [Gprs.get] at e0 e1 e2 e3 e4 e5 e6 e7
  simp only [e0, e1, e2, e3, e4, e5, e6, e7]

/-! ### One lemma per field per update -/

@[simp] theorem State.setGpr_x (s : State) (i : Reg) (v : Word) : (s.setGpr i v).x = s.x.set i v := rfl
@[simp] theorem State.setGpr_pc (s : State) (i : Reg) (v : Word) : (s.setGpr i v).pc = s.pc := rfl
@[simp] theorem State.setGpr_cond (s : State) (i : Reg) (v : Word) : (s.setGpr i v).cond = s.cond := rfl
@[simp] theorem State.setGpr_mem (s : State) (i : Reg) (v : Word) : (s.setGpr i v).mem = s.mem := rfl
@[simp] theorem State.setGpr_halt (s : State) (i : Reg) (v : Word) : (s.setGpr i v).halt = s.halt := rfl
@[simp] theorem State.setGpr_trapCalls (s : State) (i : Reg) (v : Word) : (s.setGpr i v).trapCalls = s.trapCalls := rfl

@[simp] theorem State.setPc_x (s : State) (v : Word) : (s.setPc v).x = s.x := rfl
@[simp] theorem State.setPc_pc (s : State) (v : Word) : (s.setPc v).pc = v := rfl
@[simp] theorem State.setPc_cond (s : State) (v : Word) : (s.setPc v).cond = s.cond := rfl
@[simp] theorem State.setPc_mem (s : State) (v : Word) : (s.setPc v).mem = s.mem := rfl
@[simp] theorem State.setPc_halt (s : State) (v : Word) : (s.setPc v).halt = s.halt := rfl
@[simp] theorem State.setPc_trapCalls (s : State) (v : Word) : (s.setPc v).trapCalls = s.trapCalls := rfl

@[simp] theorem State.setCond_x (s : State) (v : Word) : (s.setCond v).x = s.x := rfl
@[simp] theorem State.setCond_pc (s : State) (v : Word) : (s.setCond v).pc = s.pc := rfl
@[simp] theorem State.setCond_cond (s : State) (v : Word) : (s.setCond v).cond = v := rfl
@[simp] theorem State.setCond_mem (s : State) (v : Word) : (s.setCond v).mem = s.mem := rfl
@[simp] theorem State.setCond_halt (s : State) (v : Word) : (s.setCond v).halt = s.halt := rfl
@[simp] theorem State.setCond_trapCalls (s : State) (v : Word) : (s.setCond v).trapCalls = s.trapCalls := rfl

@[simp] theorem State.raiseHalt_x (s : State) : (s.raiseHalt).x = s.x := rfl
@[simp] theorem State.raiseHalt_pc (s : State) : (s.raiseHalt).pc = s.pc := rfl
@[simp] theorem State.raiseHalt_cond (s : State) : (s.raiseHalt).cond = s.cond := rfl
@[simp] theorem State.raiseHalt_mem (s : State) : (s.raiseHalt).mem = s.mem := rfl
@[simp] theorem State.raiseHalt_halt (s : State) : (s.raiseHalt).halt = true := rfl
@[simp] theorem State.raiseHalt_trapCalls (s : State) : (s.raiseHalt).trapCalls = s.trapCalls := rfl

@[simp] theorem State.memWrite_x (s : State) (a v : Word) : (s.memWrite a v).x = s.x := rfl
@[simp] theorem State.memWrite_pc (s : State) (a v : Word) : (s.memWrite a v).pc = s.pc := rfl
@[simp] theorem State.memWrite_cond (s : State) (a v : Word) : (s.memWrite a v).cond = s.cond := rfl
@[simp] theorem State.memWrite_mem (s : State) (a v : Word) : (s.memWrite a v).mem = s.mem.write a.toNat v := rfl
@[simp] theorem State.memWrite_halt (s : State) (a v : Word) : (s.memWrite a v).halt = s.halt := rfl
@[simp] theorem State.memWrite_trapCalls (s : State) (a v : Word) : (s.memWrite a v).trapCalls = s.trapCalls := rfl

/-! ### The register file's reads over each update -/

@[simp] theorem State.readReg_gpr (s : State) (i : Reg) : s.readReg (.gpr i) = s.gpr i := rfl
@[simp] theorem State.readReg_PC (s : State) : s.readReg .PC = s.pc := rfl
@[simp] theorem State.readReg_COND (s : State) : s.readReg .COND = s.cond := rfl

@[simp] theorem State.gpr_setGpr_same (s : State) (i : Reg) (v : Word) : (s.setGpr i v).gpr i = v :=
  Gprs.get_set_same _ _ _

theorem State.gpr_setGpr_other {i j : Reg} (h : j ≠ i) (s : State) (v : Word) : (s.setGpr i v).gpr j = s.gpr j :=
  Gprs.get_set_other h _ _

@[simp] theorem State.gpr_setPc (s : State) (v : Word) (j : Reg) : (s.setPc v).gpr j = s.gpr j := rfl
@[simp] theorem State.gpr_setCond (s : State) (v : Word) (j : Reg) : (s.setCond v).gpr j = s.gpr j := rfl
@[simp] theorem State.gpr_raiseHalt (s : State) (j : Reg) : s.raiseHalt.gpr j = s.gpr j := rfl
@[simp] theorem State.gpr_memWrite (s : State) (a v : Word) (j : Reg) : (s.memWrite a v).gpr j = s.gpr j := rfl

theorem State.readReg_setGpr_other {r : RegId} {i : Reg} (h : r ≠ .gpr i) (s : State) (v : Word) :
    (s.setGpr i v).readReg r = s.readReg r := by
  cases r with
  | gpr j => exact State.gpr_setGpr_other (fun e => h (congrArg RegId.gpr e)) s v
  | PC => rfl
  | COND => rfl

theorem State.readReg_setPc_other {r : RegId} (h : r ≠ .PC) (s : State) (v : Word) :
    (s.setPc v).readReg r = s.readReg r := by
  cases r <;> first | rfl | exact absurd rfl h

theorem State.readReg_setCond_other {r : RegId} (h : r ≠ .COND) (s : State) (v : Word) :
    (s.setCond v).readReg r = s.readReg r := by
  cases r <;> first | rfl | exact absurd rfl h

@[simp] theorem State.readReg_raiseHalt (s : State) (r : RegId) : s.raiseHalt.readReg r = s.readReg r := by
  cases r <;> rfl

@[simp] theorem State.readReg_memWrite (s : State) (a v : Word) (r : RegId) :
    (s.memWrite a v).readReg r = s.readReg r := by
  cases r <;> rfl

/-! ### Memory's reads over each register update -/

@[simp] theorem State.memRead_setGpr (s : State) (i : Reg) (v a : Word) : (s.setGpr i v).memRead a = s.memRead a := rfl
@[simp] theorem State.memRead_setPc (s : State) (v a : Word) : (s.setPc v).memRead a = s.memRead a := rfl
@[simp] theorem State.memRead_setCond (s : State) (v a : Word) : (s.setCond v).memRead a = s.memRead a := rfl
@[simp] theorem State.memRead_raiseHalt (s : State) (a : Word) : s.raiseHalt.memRead a = s.memRead a := rfl

end Sys2Proof.Machine
end

