-- ==== Sys2Proof/Laws/Ops.lean ====
section
/-! SUPPORT. One lemma per shared operation: what it can do, said once, for later proofs to cite. -/

namespace Sys2Proof.Machine

/-! ### MemRead and MemWrite -/

@[simp] theorem State.memRead_memWrite_same (s : State) (a v : Word) : (s.memWrite a v).memRead a = v :=
  Memory.read_write_same _ _ _

theorem State.memRead_memWrite_other {a b : Word} (h : b ≠ a) (s : State) (v : Word) :
    (s.memWrite a v).memRead b = s.memRead b :=
  Memory.read_write_other (fun e => h (BitVec.eq_of_toNat_eq e)) _ _

theorem State.memWrite_canonical {s : State} (h : s.mem.wf = true) (a v : Word) : (s.memWrite a v).mem.wf = true :=
  Memory.wf_write h a.isLt v

/-! ### The register file's write -/

@[simp] theorem State.readReg_writeReg_same (s : State) (r : RegId) (v : Word) : (s.writeReg r v).readReg r = v := by
  cases r with
  | gpr i => exact State.gpr_setGpr_same s i v
  | PC => rfl
  | COND => rfl

@[simp] theorem State.mem_writeReg (s : State) (r : RegId) (v : Word) : (s.writeReg r v).mem = s.mem := by
  cases r <;> rfl

@[simp] theorem State.halt_writeReg (s : State) (r : RegId) (v : Word) : (s.writeReg r v).halt = s.halt := by
  cases r <;> rfl

@[simp] theorem State.trapCalls_writeReg (s : State) (r : RegId) (v : Word) :
    (s.writeReg r v).trapCalls = s.trapCalls := by
  cases r <;> rfl

/-! ### The flag-setting end and the link -/

@[simp] theorem State.writeResult_gpr_same (s : State) (dr : Reg) (v : Word) : (s.writeResult dr v).gpr dr = v :=
  State.gpr_setGpr_same s dr v

@[simp] theorem State.writeResult_cond (s : State) (dr : Reg) (v : Word) : (s.writeResult dr v).cond = condOf v := by
  simp [State.writeResult, State.setcc]

theorem State.writeResult_readReg_other {r : RegId} {dr : Reg} (h : r ≠ .gpr dr) (h' : r ≠ .COND) (s : State) (v : Word) :
    (s.writeResult dr v).readReg r = s.readReg r := by
  rw [State.writeResult, State.setcc, State.readReg_setCond_other h', State.readReg_setGpr_other h]

@[simp] theorem State.writeResult_pc (s : State) (dr : Reg) (v : Word) : (s.writeResult dr v).pc = s.pc := rfl
@[simp] theorem State.writeResult_mem (s : State) (dr : Reg) (v : Word) : (s.writeResult dr v).mem = s.mem := rfl
@[simp] theorem State.writeResult_halt (s : State) (dr : Reg) (v : Word) : (s.writeResult dr v).halt = s.halt := rfl
@[simp] theorem State.writeResult_trapCalls (s : State) (dr : Reg) (v : Word) :
    (s.writeResult dr v).trapCalls = s.trapCalls := rfl
@[simp] theorem State.writeResult_memRead (s : State) (dr : Reg) (v a : Word) :
    (s.writeResult dr v).memRead a = s.memRead a := rfl

/-- A condition code says the sign of the value it is computed from. -/
theorem condOf_matches (v : Word) : FlagsMatch v (condOf v) := by
  unfold FlagsMatch condOf condZRO condNEG condPOS
  by_cases h : v = 0#16
  · subst h; simp
  · have h0 : v.toInt ≠ 0 := fun e => h (BitVec.eq_of_toInt_eq (by simpa using e))
    have hm : v.getLsbD 15 = decide (v.toInt < 0) := by
      rw [← BitVec.msb_eq_toInt, BitVec.msb_eq_getLsbD_last]
    simp only [if_neg h, hm]
    by_cases g : v.toInt < 0
    · simp [g]
    · simp [g]; omega

/-- All that the end of a flag-setting instruction does. -/
theorem State.writeResult_effect (s : State) (dr : Reg) (v : Word) : ResultAndFlags dr v s (s.writeResult dr v) := by
  refine ⟨by simp, by simpa using condOf_matches v, fun r hr => ?_, fun a _ => rfl, rfl, rfl⟩
  simp only [List.mem_cons, List.not_mem_nil, or_false, not_or] at hr
  exact State.writeResult_readReg_other hr.1 hr.2 s v

@[simp] theorem State.link_gpr_R7 (s : State) : s.link.gpr .R7 = s.pc := rfl

theorem State.link_readReg_other {r : RegId} (h : r ≠ .gpr .R7) (s : State) : s.link.readReg r = s.readReg r :=
  State.readReg_setGpr_other h s s.pc

@[simp] theorem State.link_pc (s : State) : s.link.pc = s.pc := rfl
@[simp] theorem State.link_cond (s : State) : s.link.cond = s.cond := rfl
@[simp] theorem State.link_mem (s : State) : s.link.mem = s.mem := rfl

/-! ### What the environment may do -/

theorem State.envAccesses_cons (s : State) (a : EnvAccess) (rest : List EnvAccess) :
    s.envAccesses (a :: rest) = (s.envAccess a).envAccesses rest := rfl

theorem State.envAccesses_append (s : State) (l l' : List EnvAccess) :
    s.envAccesses (l ++ l') = (s.envAccesses l).envAccesses l' := by
  induction l generalizing s with
  | nil => rfl
  | cons a rest ih => exact ih (s.envAccess a)

theorem State.envAccess_canonical {s : State} (h : s.mem.wf = true) (a : EnvAccess) : (s.envAccess a).mem.wf = true := by
  cases a with
  | writeReg r v => simpa [State.envAccess] using h
  | writeMem a v => exact State.memWrite_canonical h a v
  | raiseHalt => exact h

theorem State.envAccesses_canonical {s : State} (h : s.mem.wf = true) (l : List EnvAccess) :
    (s.envAccesses l).mem.wf = true := by
  induction l generalizing s with
  | nil => exact h
  | cons a rest ih => exact ih (State.envAccess_canonical h a)

theorem State.envAccess_halt {s : State} (h : s.halt = true) (a : EnvAccess) : (s.envAccess a).halt = true := by
  cases a with
  | writeReg r v => simpa [State.envAccess] using h
  | writeMem a v => exact h
  | raiseHalt => rfl

theorem State.envAccess_trapCalls (s : State) (a : EnvAccess) : (s.envAccess a).trapCalls = s.trapCalls := by
  cases a with
  | writeReg r v => simp [State.envAccess]
  | writeMem a v => rfl
  | raiseHalt => rfl

theorem State.trapCall_canonical {s : State} (h : s.mem.wf = true) (vec : BitVec 8) : (s.trapCall vec).mem.wf = true :=
  State.envAccesses_canonical (s := { s with trapCalls := s.trapCalls + 1 }) h _

/-! ### The shape of an instruction's answer -/

/-- `exec` answers a next state, but for RTI and RES, whose answer is the fault; it never refuses. -/
theorem exec_answers (i : Instr) (s : State) :
    (∃ t, exec i s = .next t) ∨ ∃ cause ir, exec i s = .fault (.unimplementedInstruction cause ir (s.pc - 1#16) s) := by
  cases i with
  | rti u => exact .inr ⟨.RTI, encode (.rti u), rfl⟩
  | res u => exact .inr ⟨.RES, encode (.res u), rfl⟩
  | _ => exact .inl ⟨_, rfl⟩

/-- What an instruction that answers a next state does to memory: nothing, the one store of its access list, or a callback's
accesses. -/
theorem exec_mem_cases {i : Instr} {s t : State} (h : exec i s = .next t) :
    t.mem = s.mem ∨ (∃ a v, Access.write a v ∈ dataAccesses i s ∧ t = s.memWrite a v) ∨
      ∃ vec, i = .trap vec ∧ t = s.trapCall vec := by
  cases i with
  | br m o =>
    simp only [exec, execBr, Host.Outcome.next.injEq] at h
    subst h
    exact .inl (by split <;> rfl)
  | st r o => cases h; exact .inr (.inl ⟨_, _, by simp [dataAccesses], rfl⟩)
  | sti r o => cases h; exact .inr (.inl ⟨_, _, by simp [dataAccesses], rfl⟩)
  | str r b o => cases h; exact .inr (.inl ⟨_, _, by simp [dataAccesses], rfl⟩)
  | trap v => cases h; exact .inr (.inr ⟨v, rfl, rfl⟩)
  | rti u => cases h
  | res u => cases h
  | _ => cases h; exact .inl rfl

/-! ### The step -/

theorem step_halted {s : State} (h : s.halt = true) : step s = .next s := by simp [step, h]

theorem step_running {s : State} (h : s.halt = false) : step s = exec (decode s.fetchWord) s.advancePc := by
  simp [step, h, execute]

end Sys2Proof.Machine
end

