-- ==== Sys2Proof/Laws/PerInstr.lean ====
section
/-! SUPPORT. Statements about each instruction as syntax, one lemma per constructor. The family EncodedForm: the opcode field
of the encoded word is the instruction's opcode (30_encoding.md R81, R87). -/

namespace Sys2Proof.Laws.EncodedForm

/-- `bits[15:12]` of the encoded word is the instruction's opcode. -/
def Statement (i : Instr) : Prop := opcodeField (encode i) = i.opcode

/-- A word whose `bits[15:12]` are an opcode's number has that opcode. -/
theorem of_number {w : Word} {o : Opcode} (h : w.extractLsb' 12 4 = o.toBits) : opcodeField w = o := by
  rw [opcodeField, h, Opcode.ofBits_toBits]

theorem br (m : BitVec 3) (o : BitVec 9) : Statement (.br m o) := of_number (by
  simp only [encode]; repeat erw [BitVec.extractLsb'_append_eq_of_le (by decide)]
  rfl)
theorem addReg (d : Reg) (a : Reg) (b : Reg) : Statement (.addReg d a b) := of_number (by
  simp only [encode]; repeat erw [BitVec.extractLsb'_append_eq_of_le (by decide)]
  rfl)
theorem addImm (d : Reg) (a : Reg) (n : BitVec 5) : Statement (.addImm d a n) := of_number (by
  simp only [encode]; repeat erw [BitVec.extractLsb'_append_eq_of_le (by decide)]
  rfl)
theorem ld (d : Reg) (o : BitVec 9) : Statement (.ld d o) := of_number (by
  simp only [encode]; repeat erw [BitVec.extractLsb'_append_eq_of_le (by decide)]
  rfl)
theorem st (r : Reg) (o : BitVec 9) : Statement (.st r o) := of_number (by
  simp only [encode]; repeat erw [BitVec.extractLsb'_append_eq_of_le (by decide)]
  rfl)
theorem jsrr (b : Reg) : Statement (.jsrr b) := of_number (by
  simp only [encode]; repeat erw [BitVec.extractLsb'_append_eq_of_le (by decide)]
  rfl)
theorem jsr (o : BitVec 11) : Statement (.jsr o) := of_number (by
  simp only [encode]; repeat erw [BitVec.extractLsb'_append_eq_of_le (by decide)]
  rfl)
theorem andReg (d : Reg) (a : Reg) (b : Reg) : Statement (.andReg d a b) := of_number (by
  simp only [encode]; repeat erw [BitVec.extractLsb'_append_eq_of_le (by decide)]
  rfl)
theorem andImm (d : Reg) (a : Reg) (n : BitVec 5) : Statement (.andImm d a n) := of_number (by
  simp only [encode]; repeat erw [BitVec.extractLsb'_append_eq_of_le (by decide)]
  rfl)
theorem ldr (d : Reg) (b : Reg) (o : BitVec 6) : Statement (.ldr d b o) := of_number (by
  simp only [encode]; repeat erw [BitVec.extractLsb'_append_eq_of_le (by decide)]
  rfl)
theorem str (r : Reg) (b : Reg) (o : BitVec 6) : Statement (.str r b o) := of_number (by
  simp only [encode]; repeat erw [BitVec.extractLsb'_append_eq_of_le (by decide)]
  rfl)
theorem rti (u : BitVec 12) : Statement (.rti u) := of_number (by
  simp only [encode]; repeat erw [BitVec.extractLsb'_append_eq_of_le (by decide)]
  rfl)
theorem not (d : Reg) (r : Reg) : Statement (.not d r) := of_number (by
  simp only [encode]; repeat erw [BitVec.extractLsb'_append_eq_of_le (by decide)]
  rfl)
theorem ldi (d : Reg) (o : BitVec 9) : Statement (.ldi d o) := of_number (by
  simp only [encode]; repeat erw [BitVec.extractLsb'_append_eq_of_le (by decide)]
  rfl)
theorem sti (r : Reg) (o : BitVec 9) : Statement (.sti r o) := of_number (by
  simp only [encode]; repeat erw [BitVec.extractLsb'_append_eq_of_le (by decide)]
  rfl)
theorem jmp (b : Reg) : Statement (.jmp b) := of_number (by
  simp only [encode]; repeat erw [BitVec.extractLsb'_append_eq_of_le (by decide)]
  rfl)
theorem res (u : BitVec 12) : Statement (.res u) := of_number (by
  simp only [encode]; repeat erw [BitVec.extractLsb'_append_eq_of_le (by decide)]
  rfl)
theorem lea (d : Reg) (o : BitVec 9) : Statement (.lea d o) := of_number (by
  simp only [encode]; repeat erw [BitVec.extractLsb'_append_eq_of_le (by decide)]
  rfl)
theorem trap (v : BitVec 8) : Statement (.trap v) := of_number (by
  simp only [encode]; repeat erw [BitVec.extractLsb'_append_eq_of_le (by decide)]
  rfl)

end Sys2Proof.Laws.EncodedForm
end

