-- ==== Sys2Proof/Tests/Slice0.lean ====
section
/-! SUPPORT. Tests whose expected results are the spec's own examples and tables (the file and vector stand above each group), and
for each statement with hypotheses a witness: a concrete state and operands that meet all of them together. -/

namespace Sys2Proof.Tests

open Sys2Proof Sys2Proof.Machine

/-- A small state: `pc`, COND, some registers and some cells; the rest as at reset. -/
def mk (pc cond : Word) (regs : List (Reg × Word)) (cells : List (Word × Word)) : State :=
  let s := { State.reset with pc := pc, cond := cond }
  let s := regs.foldl (fun s r => s.setGpr r.1 r.2) s
  cells.foldl (fun s c => s.memWrite c.1 c.2) s

/-- The answer is a next state with a property. -/
def nextHas (r : Result) (p : State → Bool) : Bool :=
  match r with
  | .next t => p t
  | .fault _ => false
  | .refused _ => false

/-- The answer is exactly this fault. -/
def faultsWith (r : Result) (f : Fault) : Bool :=
  match r with
  | .next _ => false
  | .fault g => decide (g = f)
  | .refused _ => false

/-! ### Well-formedness: JSR in register mode names R0 to R3 only (30_encoding.md R83) -/

theorem test_wf_refuses_jsrr_R4 : (Instr.jsrr .R4).wf = false := by decide
theorem test_wf_refuses_jsrr_R7 : (Instr.jsrr .R7).wf = false := by decide
theorem test_wf_accepts_jsrr_R3 : (Instr.jsrr .R3).wf = true := by decide

/-! ### Decoding: words written out from the patterns of 30_encoding.md R82 and R93 -/

theorem test_decode_br : decode 0b0000101000000101#16 = .br 0b101#3 5#9 := by decide
theorem test_decode_addReg : decode 0b0001000001000010#16 = .addReg .R0 .R1 .R2 := by decide
theorem test_decode_addReg_unused : decode 0b0001000000011001#16 = .addReg .R0 .R0 .R1 := by decide
theorem test_decode_addImm : decode 0b0001000001111101#16 = .addImm .R0 .R1 0b11101#5 := by decide
theorem test_decode_ld : decode 0b0010001100000000#16 = .ld .R1 0b100000000#9 := by decide
theorem test_decode_st : decode 0b0011111000000001#16 = .st .R7 1#9 := by decide
theorem test_decode_jsrr : decode 0b0100010000000000#16 = .jsrr .R2 := by decide
theorem test_decode_jsrr_base_is_bits_10_9 : decode 0b0100000010000000#16 = .jsrr .R0 := by decide
theorem test_decode_jsr : decode 0b0100110000000000#16 = .jsr 0b10000000000#11 := by decide
theorem test_decode_andReg : decode 0b0101011001000010#16 = .andReg .R3 .R1 .R2 := by decide
theorem test_decode_andImm : decode 0b0101000000110000#16 = .andImm .R0 .R0 0b10000#5 := by decide
theorem test_decode_ldr : decode 0b0110101010011111#16 = .ldr .R5 .R2 31#6 := by decide
theorem test_decode_str : decode 0b0111010001000001#16 = .str .R2 .R1 1#6 := by decide
theorem test_decode_rti : decode 0b1000111111111111#16 = .rti 0xFFF#12 := by decide
theorem test_decode_not_unused : decode 0b1001010010111111#16 = .not .R2 .R2 := by decide
theorem test_decode_ldi : decode 0b1010011000000100#16 = .ldi .R3 4#9 := by decide
theorem test_decode_sti : decode 0b1011010000000100#16 = .sti .R2 4#9 := by decide
theorem test_decode_jmp_unused : decode 0b1100111000111111#16 = .jmp .R0 := by decide
theorem test_decode_ret : decode 0xC1C0#16 = .ret := by decide
theorem test_decode_nop : decode 0x0000#16 = .nop := by decide
theorem test_decode_res : decode 0b1101101010111100#16 = .res 0xABC#12 := by decide
theorem test_decode_lea : decode 0b1110001000000111#16 = .lea .R1 7#9 := by decide
theorem test_decode_trap_unused : decode 0b1111111100100101#16 = .trap 0x25#8 := by decide
theorem test_table_word_too_wide : decodeTableWord 16 0x10000 = none := by decide

/-! ### Notation (30_encoding.md R93, R94) -/

theorem test_asm_br : (decode 0x03FD#16).asm = ⟨"BRp", [.imm (-3)]⟩ := by decide
theorem test_asm_addImm : (decode 0x107D#16).asm = ⟨"ADD", [.reg .R0, .reg .R1, .imm (-3)]⟩ := by decide
theorem test_asm_nop : (decode 0x0000#16).asm = ⟨"NOP", []⟩ := by decide

/-! ### Primitives (95_test_vectors.md 2.1) -/

theorem test_sext5_negative : sext 0b11111#5 = 0xFFFF#16 := by decide
theorem test_sext5_positive : sext 0b01111#5 = 0x000F#16 := by decide
theorem test_sext6 : sext 0x20#6 = 0xFFE0#16 := by decide
theorem test_sext9 : sext 0x1FD#9 = 0xFFFD#16 := by decide
theorem test_sext11 : sext 0x400#11 = 0xFC00#16 := by decide

/-! ### The handlers (95_test_vectors.md S4 to S7, 2.2 to 2.15), through `execute` -/

theorem test_add_carry_lost :
    nextHas (execute 0x1001#16 (mk 0#16 0#16 [(.R0, 0xFFFF#16), (.R1, 0x0001#16)] []))
      (fun t => t.gpr .R0 == 0x0000#16 && t.cond == 0x0002#16) = true := by decide
theorem test_add_signed_overflow :
    nextHas (execute 0x1001#16 (mk 0#16 0#16 [(.R0, 0x7FFF#16), (.R1, 0x0001#16)] []))
      (fun t => t.gpr .R0 == 0x8000#16 && t.cond == 0x0004#16) = true := by decide
theorem test_addImm_negative :
    nextHas (execute 0x107D#16 (mk 0#16 0#16 [(.R1, 0x0005#16)] []))
      (fun t => t.gpr .R0 == 0x0002#16 && t.cond == 0x0001#16) = true := by decide
theorem test_and_register :
    nextHas (execute 0x5642#16 (mk 0#16 0#16 [(.R1, 0xF0F0#16), (.R2, 0x8F0F#16)] []))
      (fun t => t.gpr .R3 == 0x8000#16 && t.cond == 0x0004#16) = true := by decide
theorem test_andImm_sign_extended :
    nextHas (execute 0x5030#16 (mk 0#16 0#16 [(.R0, 0xBEEF#16)] []))
      (fun t => t.gpr .R0 == 0xBEE0#16 && t.cond == 0x0004#16) = true := by decide
theorem test_not :
    nextHas (execute 0x9040#16 (mk 0#16 0#16 [(.R1, 0x8000#16)] []))
      (fun t => t.gpr .R0 == 0x7FFF#16 && t.cond == 0x0001#16) = true := by decide
theorem test_ld_wraps :
    nextHas (execute 0x2001#16 (mk 0xFFFF#16 0#16 [] [(0x0000#16, 0x8001#16)]))
      (fun t => t.gpr .R0 == 0x8001#16 && t.cond == 0x0004#16) = true := by decide
theorem test_ldi_source_example :
    nextHas (execute 0xA001#16 (mk 0x2FFF#16 0#16 [] [(0x3000#16, 0x4000#16), (0x4000#16, 0x1234#16)]))
      (fun t => t.gpr .R0 == 0x1234#16 && t.cond == 0x0001#16 && t.pc == 0x2FFF#16) = true := by decide
theorem test_ldr_base_is_destination :
    nextHas (execute 0x6240#16 (mk 0#16 0#16 [(.R1, 0x4000#16)] [(0x4000#16, 0x4001#16)]))
      (fun t => t.gpr .R1 == 0x4001#16 && t.cond == 0x0001#16) = true := by decide
theorem test_ldr_wraps :
    nextHas (execute 0x6A9F#16 (mk 0#16 0#16 [(.R2, 0xFFF0#16)] [(0x000F#16, 0x0042#16)]))
      (fun t => t.gpr .R5 == 0x0042#16) = true := by decide
theorem test_lea_sets_flags :
    nextHas (execute 0xE0FF#16 (mk 0x7F01#16 0#16 [] []))
      (fun t => t.gpr .R0 == 0x8000#16 && t.cond == 0x0004#16) = true := by decide
theorem test_st_keeps_cond :
    nextHas (execute 0x3000#16 (mk 0x3001#16 4#16 [(.R0, 0x1267#16)] []))
      (fun t => t.mem == [(0x3001, 0x1267#16)] && t.cond == 0x0004#16) = true := by decide
theorem test_st_of_zero_unlists :
    nextHas (execute 0x3000#16 (mk 0x3001#16 4#16 [] [(0x3001#16, 0xD000#16)])) (fun t => t.mem == []) = true := by decide
theorem test_sti_overwrites_pointer :
    nextHas (execute 0xB000#16 (mk 0x3001#16 0#16 [(.R0, 0x5555#16)] [(0x3001#16, 0x3001#16)]))
      (fun t => t.mem == [(0x3001, 0x5555#16)]) = true := by decide
theorem test_str_wraps :
    nextHas (execute 0x707F#16 (mk 0#16 0#16 [(.R0, 0xAAAA#16)] [])) (fun t => t.mem == [(0xFFFF, 0xAAAA#16)]) = true := by
  decide
theorem test_br_taken :
    nextHas (execute 0x03FD#16 (mk 0x3006#16 1#16 [] [])) (fun t => t.pc == 0x3003#16) = true := by decide
theorem test_br_high_bits_inert :
    nextHas (execute 0x0E05#16 (mk 0x3001#16 0xFFF8#16 [] [])) (fun t => t.pc == 0x3001#16) = true := by decide
theorem test_jmp :
    nextHas (execute 0xC1C0#16 (mk 0x3007#16 4#16 [(.R7, 0x3001#16)] []))
      (fun t => t.pc == 0x3001#16 && t.cond == 0x0004#16) = true := by decide
theorem test_jsr_wraps :
    nextHas (execute 0x4BFF#16 (mk 0xFE00#16 0#16 [] []))
      (fun t => t.gpr .R7 == 0xFE00#16 && t.pc == 0x01FF#16) = true := by decide
theorem test_jsrr_not_bits_8_6 :
    nextHas (execute 0x4080#16 (mk 0x3001#16 0#16 [(.R0, 0x5000#16), (.R2, 0x6000#16)] []))
      (fun t => t.gpr .R7 == 0x3001#16 && t.pc == 0x5000#16) = true := by decide
theorem test_rti_execute :
    faultsWith (execute 0x8FFF#16 (mk 5#16 0#16 [] []))
      (.unimplementedInstruction .RTI 0x8FFF#16 4#16 (mk 5#16 0#16 [] [])) = true := by decide
theorem test_res_step_at_top :
    faultsWith (step (mk 0xFFFF#16 0#16 [] [(0xFFFF#16, 0xD000#16)]))
      (.unimplementedInstruction .RES 0xD000#16 0xFFFF#16 (mk 0x0000#16 0#16 [] [(0xFFFF#16, 0xD000#16)])) = true := by decide

/-! ### TRAP (95_test_vectors.md S8 and 2.15): the callback's behaviour is a premise, as it is there -/

theorem test_trap_unused_bits_do_not_reach_callback (s : State) : execute 0xFF25#16 s = execute 0xF025#16 s := rfl

theorem test_trap_halts_under_premise
    (h : Config.trapCallback 0 0x25#8 (mk 0x3008#16 0#16 [] [(0x3007#16, 0xF025#16)]).view = [.raiseHalt]) :
    step (mk 0x3007#16 0#16 [] [(0x3007#16, 0xF025#16)]) =
      .next { mk 0x3008#16 0#16 [] [(0x3007#16, 0xF025#16)] with halt := true, trapCalls := 1 } := by
  have e : step (mk 0x3007#16 0#16 [] [(0x3007#16, 0xF025#16)]) =
    .next ((mk 0x3008#16 0#16 [] [(0x3007#16, 0xF025#16)]).trapCall 0x25#8) := rfl
  have c : (mk 0x3008#16 0#16 [] [(0x3007#16, 0xF025#16)]).trapCalls = 0 := rfl
  rw [e, State.trapCall, c, h]
  rfl

theorem test_trap_callback_overrides_pc_under_premise
    (h : Config.trapCallback 0 0x21#8 (mk 0x3001#16 0#16 [] [(0x3000#16, 0xF021#16)]).view = [.writeReg .PC 0x4000#16]) :
    step (mk 0x3000#16 0#16 [] [(0x3000#16, 0xF021#16)]) =
      .next { mk 0x4000#16 0#16 [] [(0x3000#16, 0xF021#16)] with trapCalls := 1 } := by
  have e : step (mk 0x3000#16 0#16 [] [(0x3000#16, 0xF021#16)]) =
    .next ((mk 0x3001#16 0#16 [] [(0x3000#16, 0xF021#16)]).trapCall 0x21#8) := rfl
  have c : (mk 0x3001#16 0#16 [] [(0x3000#16, 0xF021#16)]).trapCalls = 0 := rfl
  rw [e, State.trapCall, c, h]
  rfl

/-! ### The step (95_test_vectors.md 2.16) -/

theorem test_step_increment_wraps :
    nextHas (step (mk 0xFFFF#16 0#16 [] [(0xFFFF#16, 0x1021#16)]))
      (fun t => t.gpr .R0 == 1#16 && t.cond == 1#16 && t.pc == 0x0000#16) = true := by decide
theorem test_step_halted_ignores_res :
    nextHas (step { mk 0x3000#16 0#16 [] [(0x3000#16, 0xD000#16)] with halt := true })
      (fun t => t == { mk 0x3000#16 0#16 [] [(0x3000#16, 0xD000#16)] with halt := true }) = true := by decide
theorem test_fetch_word_from_reset :
    nextHas (step (State.reset.withFetchWord 16 0x1021)) (fun t => t.gpr .R0 == 1#16 && t.pc == 1#16) = true := by decide
theorem test_accesses_sti :
    stepAccesses (mk 0x3006#16 0#16 [(.R2, 0xFFF9#16)] [(0x3006#16, 0xB404#16), (0x300B#16, 0x4000#16)]) =
      [.read 0x3006#16, .read 0x300B#16, .write 0x4000#16 0xFFF9#16] := by decide

/-! ### Witnesses: concrete states and operands that meet each statement's hypotheses -/

/-- A state about to fetch one word at 0x3000. -/
def at3000 (w : Word) (regs : List (Reg × Word)) (cells : List (Word × Word)) : State :=
  mk 0x3000#16 2#16 regs ((0x3000#16, w) :: cells)

/-- JsrrLinksAndJumpsToRegister, at both ends of the field. -/
theorem witness_jsrr_base : Reg.R0.lowFour = true ∧ Reg.R3.lowFour = true := by decide

/-- The premise shared by the clauses of OffsetsCountFromNextAddress, at a word and a target reached by a 9-bit offset. -/
def reaches9 (w : Word) (i : Instr) (off : BitVec 9) (target : Word) : Prop :=
  ∃ t, (at3000 w [] []).halt = false ∧ step (at3000 w [] []) = .next t ∧
    decode ((at3000 w [] []).memRead (at3000 w [] []).pc) = i ∧
    sext off = target - ((at3000 w [] []).pc + 1#16)

theorem witness_offsets_lea : reaches9 0xE207#16 (.lea .R1 7#9) 7#9 0x3008#16 := ⟨_, rfl, rfl, by decide, by decide⟩
theorem witness_offsets_ld : reaches9 0x2005#16 (.ld .R0 5#9) 5#9 0x3006#16 := ⟨_, rfl, rfl, by decide, by decide⟩
theorem witness_offsets_ldi : reaches9 0xA000#16 (.ldi .R0 0#9) 0#9 0x3001#16 := ⟨_, rfl, rfl, by decide, by decide⟩
theorem witness_offsets_st : reaches9 0x31FF#16 (.st .R0 0x1FF#9) 0x1FF#9 0x3000#16 := ⟨_, rfl, rfl, by decide, by decide⟩
theorem witness_offsets_sti : reaches9 0xB404#16 (.sti .R2 4#9) 4#9 0x3005#16 := ⟨_, rfl, rfl, by decide, by decide⟩
theorem witness_offsets_br : reaches9 0x0405#16 (.br 2#3 5#9) 5#9 0x3006#16 ∧ brTaken 2#3 (at3000 0x0405#16 [] []).cond = true :=
  ⟨⟨_, rfl, rfl, by decide, by decide⟩, by decide⟩
theorem witness_offsets_jsr : ∃ t, (at3000 0x4C00#16 [] []).halt = false ∧ step (at3000 0x4C00#16 [] []) = .next t ∧
    decode ((at3000 0x4C00#16 [] []).memRead (at3000 0x4C00#16 [] []).pc) = .jsr 0x400#11 ∧
    sext 0x400#11 = 0x2C01#16 - ((at3000 0x4C00#16 [] []).pc + 1#16) :=
  ⟨_, rfl, rfl, by decide, by decide⟩

/-- EnvironmentWritesActInOrder: a list that names neither the register nor the cell, before and after the write asked about. -/
theorem witness_environment_writes :
    (∀ v, EnvAccess.writeReg .PC v ∉ [EnvAccess.writeReg (.gpr .R0) 0x41#16, .raiseHalt]) ∧
    (∀ v, EnvAccess.writeMem 0xFFFF#16 v ∉ [EnvAccess.writeMem 0#16 1#16, .raiseHalt]) := by
  simp

/-- EnvironmentCanMakeAnyState: reset, and a halted state with other registers and cells. -/
theorem witness_environment_any_state :
    State.reset.canonical = true ∧
    { mk 0x4000#16 7#16 [(.R3, 1#16)] [(0xFFFF#16, 2#16)] with halt := true }.canonical = true ∧
    (State.reset.halt = true → { mk 0x4000#16 7#16 [(.R3, 1#16)] [(0xFFFF#16, 2#16)] with halt := true }.halt = true) ∧
    { mk 0x4000#16 7#16 [(.R3, 1#16)] [(0xFFFF#16, 2#16)] with halt := true }.trapCalls = State.reset.trapCalls := by decide

/-- OnlyRtiAndResFault and FaultReportsWordAndAddress: a step that faults, for each cause. -/
theorem witness_step_faults :
    (∃ ir addr s, step (at3000 0x8123#16 [] []) = .fault (.unimplementedInstruction .RTI ir addr s)) ∧
    ∃ ir addr s, step (at3000 0xD123#16 [] []) = .fault (.unimplementedInstruction .RES ir addr s) :=
  ⟨⟨_, _, _, rfl⟩, _, _, _, rfl⟩

/-- FlagEvaluatorSetsCond, HandlersKeepRegisterFrame: an instruction that is no TRAP and answers a next state. -/
theorem witness_not_trap_runs :
    (∀ vec, Instr.addReg .R0 .R0 .R1 ≠ .trap vec) ∧ ∃ t, exec (.addReg .R0 .R0 .R1) State.reset = .next t :=
  ⟨by simp, _, rfl⟩

/-- FlagSettersAloneWriteCond: a flag setter, one that is none, and one that is neither BR nor TRAP, each answering a next
state. -/
theorem witness_flag_setters :
    (flagDest (.lea .R7 0x1FF#9) = some .R7 ∧ ∃ t, exec (.lea .R7 0x1FF#9) State.reset = .next t) ∧
    (flagDest (.jmp .R7) = none ∧ (∀ vec, Instr.jmp .R7 ≠ .trap vec) ∧ ∃ t, exec (.jmp .R7) State.reset = .next t) ∧
    (Instr.jmp .R7).opcode ≠ .BR ∧ (Instr.jmp .R7).opcode ≠ .TRAP :=
  ⟨⟨rfl, _, rfl⟩, ⟨rfl, by simp, _, rfl⟩, by decide, by decide⟩

/-- SignExtensionReplicatesTopBit, at both ends of its range. -/
theorem witness_sign_extension : (1 ≤ 1 ∧ 1 ≤ 16) ∧ 1 ≤ 16 ∧ 16 ≤ 16 := by decide

/-- OnlyStoresChangeMemory: an instruction of no store opcode that answers a next state, and each of the three stores. -/
theorem witness_only_stores :
    ((Instr.ldi .R0 0#9).opcode ≠ .ST ∧ (Instr.ldi .R0 0#9).opcode ≠ .STI ∧ (Instr.ldi .R0 0#9).opcode ≠ .STR ∧
      (Instr.ldi .R0 0#9).opcode ≠ .TRAP ∧ ∃ t, exec (.ldi .R0 0#9) State.reset = .next t) ∧
    (Instr.st .R0 0#9).opcode = .ST ∧ (Instr.sti .R0 0#9).opcode = .STI ∧ (Instr.str .R0 .R1 0#6).opcode = .STR :=
  ⟨⟨by decide, by decide, by decide, by decide, _, rfl⟩, rfl, rfl, rfl⟩

/-- HandlersDependOnlyOnTheirReads: LDI from two states that agree on `pc` and on the two cells it reads and on nothing else. -/
theorem witness_handlers_depend :
    (∀ vec, Instr.ldi .R0 0#9 ≠ .trap vec) ∧
    (∀ r ∈ regsRead (.ldi .R0 0#9), (mk 0x3001#16 4#16 [(.R1, 9#16)] [(0x3001#16, 0x4000#16), (5#16, 5#16)]).readReg r =
      (mk 0x3001#16 0#16 [] [(0x3001#16, 0x4000#16)]).readReg r) ∧
    (∀ a, Access.read a ∈ dataAccesses (.ldi .R0 0#9) (mk 0x3001#16 0#16 [] [(0x3001#16, 0x4000#16)]) →
      (mk 0x3001#16 4#16 [(.R1, 9#16)] [(0x3001#16, 0x4000#16), (5#16, 5#16)]).memRead a =
        (mk 0x3001#16 0#16 [] [(0x3001#16, 0x4000#16)]).memRead a) ∧
    ∃ t, exec (.ldi .R0 0#9) (mk 0x3001#16 0#16 [] [(0x3001#16, 0x4000#16)]) = .next t := by
  refine ⟨by simp, by decide, ?_, _, rfl⟩
  intro a h
  have h' : a = 0x3001#16 ∨ a = 0x4000#16 := by
    have e : dataAccesses (.ldi .R0 0#9) (mk 0x3001#16 0#16 [] [(0x3001#16, 0x4000#16)]) =
      [.read 0x3001#16, .read 0x4000#16] := by decide
    simpa [e] using h
  rcases h' with rfl | rfl <;> decide

/-- StepRunsDecodedInstruction and HaltedRunNeverChanges: a halted and a running state, and a state reached from the first. -/
theorem witness_halted_and_running :
    State.reset.raiseHalt.halt = true ∧ State.reset.halt = false ∧ Reaches State.reset.raiseHalt State.reset.raiseHalt :=
  ⟨rfl, rfl, .refl _⟩

/-- SequentialFlowIsFetchIncrement: an instruction of sequential flow at the last address, and a BR whose test fails. -/
theorem witness_sequential_flow :
    (∃ t, (mk 0xFFFF#16 0#16 [] [(0xFFFF#16, 0x1021#16)]).halt = false ∧
      step (mk 0xFFFF#16 0#16 [] [(0xFFFF#16, 0x1021#16)]) = .next t ∧
      (decode ((mk 0xFFFF#16 0#16 [] [(0xFFFF#16, 0x1021#16)]).memRead 0xFFFF#16)).opcode ∉ [Opcode.BR, .JMP, .JSR, .TRAP]) ∧
    ∃ t, step (at3000 0x0205#16 [] []) = .next t ∧ decode ((at3000 0x0205#16 [] []).memRead 0x3000#16) = .br 1#3 5#9 ∧
      brTaken 1#3 (at3000 0x0205#16 [] []).cond = false :=
  ⟨⟨_, rfl, rfl, by decide⟩, _, rfl, by decide, by decide⟩

/-- StoreIsSeenByNextFetch: a ST into the very next cell. -/
theorem witness_store_seen : ∃ t, (at3000 0x3000#16 [(.R0, 0x1267#16)] []).halt = false ∧
    Access.write 0x3001#16 0x1267#16 ∈ stepAccesses (at3000 0x3000#16 [(.R0, 0x1267#16)] []) ∧
    step (at3000 0x3000#16 [(.R0, 0x1267#16)] []) = .next t ∧ t.pc = 0x3001#16 :=
  ⟨_, rfl, by decide, rfl, by decide⟩

/-- StepKeepsMemoryCanonical and StepKeepsCondLegal: a canonical state with a legal COND whose step is a store. -/
theorem witness_step_invariants : ∃ t, (at3000 0x3000#16 [(.R0, 0x1267#16)] []).canonical = true ∧
    condLegal (at3000 0x3000#16 [(.R0, 0x1267#16)] []).cond ∧
    (decode ((at3000 0x3000#16 [(.R0, 0x1267#16)] []).memRead (at3000 0x3000#16 [(.R0, 0x1267#16)] []).pc)).opcode ≠ .TRAP ∧
    step (at3000 0x3000#16 [(.R0, 0x1267#16)] []) = .next t :=
  ⟨_, by decide, .inr (.inr (.inl rfl)), by decide, rfl⟩

/-- StepKeepsMemoryCanonical at a TRAP, whose callback is free. -/
theorem witness_step_canonical_trap : ∃ t, (at3000 0xF025#16 [] []).canonical = true ∧ step (at3000 0xF025#16 [] []) = .next t :=
  ⟨_, by decide, rfl⟩

/-- CanonicalMemoriesAreExtensional: a memory with two cells, the first and the last address, and itself built in the other
order. -/
theorem witness_canonical_memories :
    (Memory.write (Memory.write [] 0 1#16) 0xFFFF 2#16).wf = true ∧ (Memory.write (Memory.write [] 0xFFFF 2#16) 0 1#16).wf = true ∧
    ∀ a : Word, (Memory.write (Memory.write [] 0 1#16) 0xFFFF 2#16).read a.toNat =
      (Memory.write (Memory.write [] 0xFFFF 2#16) 0 1#16).read a.toNat :=
  ⟨by decide, by decide, fun _ => rfl⟩

/-- EndedRunStaysEnded: a run that has halted, one that has faulted, one that is running. -/
theorem witness_runs :
    runFor 0 State.reset.raiseHalt = .halted State.reset.raiseHalt ∧
    (∃ f, runFor 1 (at3000 0xD000#16 [] []) = .faulted f) ∧ ∃ t, runFor 1 (at3000 0x1021#16 [] []) = .running t :=
  ⟨rfl, ⟨_, rfl⟩, _, rfl⟩

/-- DecodeInvertsEncode and UnusedBitsAreIgnored: a well-formed instruction, and two words that differ only in unused bits. -/
theorem witness_encoding :
    (Instr.jsrr .R3).wf = true ∧ (formRow (decode 0x9480#16)).matches 0x94BF#16 = true ∧
    0x9480#16 &&& usedBits (decode 0x9480#16) = 0x94BF#16 &&& usedBits (decode 0x9480#16) := by decide

end Sys2Proof.Tests
end

/-! PROOF. Sign extension of a field of 1 to 16 bits (00_scope.md R11): each bit of `sext v`, and its value. -/

namespace Sys2Proof.Machine

theorem getLsbD_sext {n : Nat} (v : BitVec n) {k : Nat} (hk : k < 16) :
    (sext v).getLsbD k = if k < n then v.getLsbD k else v.getLsbD (n - 1) := by
  rw [sext, BitVec.getLsbD_signExtend, decide_eq_true hk, Bool.true_and, BitVec.msb_eq_getLsbD_last]

theorem toNat_sext_of_lt {n : Nat} {v : BitVec n} (hn : n ≤ 16) (hv : v.toNat < 2 ^ (n - 1)) :
    (sext v).toNat = v.toNat := by
  have hmsb : v.msb = false := by simpa [BitVec.msb_eq_decide] using hv
  rw [sext, BitVec.signExtend_eq_setWidth_of_msb_false hmsb, BitVec.toNat_setWidth_of_le hn]

/-- With its top bit set the field stands for `v - 2 ^ n`, so the word is that number modulo 65536. -/
theorem toNat_sext_of_le {n : Nat} {v : BitVec n} (hn : n ≤ 16) (hv : 2 ^ (n - 1) ≤ v.toNat) :
    (sext v).toNat = v.toNat + 65536 - 2 ^ n := by
  have hmsb : v.msb = true := by simpa [BitVec.msb_eq_decide] using hv
  have hpow : 2 ^ n ≤ 2 ^ 16 := Nat.pow_le_pow_right Nat.two_pos hn
  calc (sext v).toNat
      = v.toNat + (2 ^ 16 - 2 ^ n) := by
        rw [sext, BitVec.toNat_signExtend, BitVec.toNat_setWidth_of_le hn, if_pos hmsb]
    _ = v.toNat + 65536 - 2 ^ n := (Nat.add_sub_assoc hpow _).symm

/-- Settles O32: the bits by `getLsbD_sext`, the value by the field's top bit. -/
theorem signExtensionReplicatesTopBit : Obligations.SignExtensionReplicatesTopBit := by
  intro n v _ hn
  refine ⟨fun k => getLsbD_sext v k.isLt, ?_⟩
  split
  case isTrue hv => exact toNat_sext_of_lt hn hv
  case isFalse hv => exact toNat_sext_of_le hn (Nat.le_of_not_lt hv)

end Sys2Proof.Machine

/-! PROOF. The register file and COND (10_state.md R20 to R30): what each write of a register leaves as it was, what an
instruction does to the ten registers, and what its effects depend on. -/

namespace Sys2Proof.Machine

/-! ### The register file's write -/

theorem State.readReg_writeReg_other {r q : RegId} (h : q ≠ r) (s : State) (v : Word) :
    (s.writeReg r v).readReg q = s.readReg q := by
  cases r with
  | gpr i => exact State.readReg_setGpr_other h s v
  | PC => exact State.readReg_setPc_other h s v
  | COND => exact State.readReg_setCond_other h s v

/-- A register write changes that register alone; `setGpr`, `setPc` and `setCond` are its three cases. -/
theorem State.writeReg_onlyRegsChange (s : State) (r : RegId) (v : Word) : OnlyRegsChange [r] s (s.writeReg r v) := by
  refine ⟨fun q hq => State.readReg_writeReg_other (by simpa using hq) s v, fun a _ => ?_, by simp, by simp⟩
  rw [State.memRead, State.mem_writeReg, State.memRead]

theorem State.reset_readReg (r : RegId) : State.reset.readReg r = 0x0000#16 := by
  cases r with
  | gpr i => cases i <;> rfl
  | PC => rfl
  | COND => rfl

/-- Settles O28: a write read back, its frame, and the reset values. -/
theorem registerFileReadsBackWrites : Obligations.RegisterFileReadsBackWrites := by
  refine ⟨fun s r v => ⟨?_, State.writeReg_onlyRegsChange s r _⟩, State.reset_readReg⟩
  rw [State.writeRegNat, State.readReg_writeReg_same, BitVec.toNat_ofNat]

/-! ### What stays the same, composed -/

theorem OnlyRegsChange.refl (l : List RegId) (s : State) : OnlyRegsChange l s s :=
  ⟨fun _ _ => rfl, fun _ _ => rfl, rfl, rfl⟩

theorem OnlyRegsChange.trans {l l' : List RegId} {s t u : State} (h : OnlyRegsChange l s t) (h' : OnlyRegsChange l' t u) :
    OnlyRegsChange (l ++ l') s u := by
  obtain ⟨hregs, hcells, hhalt, hcalls⟩ := h
  obtain ⟨hregs', hcells', hhalt', hcalls'⟩ := h'
  refine ⟨fun r hr => ?_, fun a ha => (hcells' a ha).trans (hcells a ha), hhalt'.trans hhalt, hcalls'.trans hcalls⟩
  rw [List.mem_append, not_or] at hr
  exact (hregs' r hr.2).trans (hregs r hr.1)

theorem OnlyRegsChange.regFrame {l : List RegId} {s t : State} (h : OnlyRegsChange l s t) :
    SameRegsExcept l s t ∧ SameEnvironment s t := by
  obtain ⟨hregs, -, henv⟩ := h
  exact ⟨hregs, henv⟩

/-- The linking jump of both JSR forms changes R7 and `pc` alone (43_control.md R173, R174). -/
theorem State.link_setPc_onlyRegsChange (s : State) (target : Word) :
    OnlyRegsChange [.gpr .R7, .PC] s (s.link.setPc target) :=
  (State.writeReg_onlyRegsChange s (.gpr .R7) s.pc).trans (State.writeReg_onlyRegsChange s.link .PC target)

/-! ### The register row of each instruction -/

/-- The seven flag-setting instructions end by `writeResult` to their destination. -/
theorem exec_flagSetter {i : Instr} {s t : State} {dr : Reg} (hd : flagDest i = some dr) (h : exec i s = .next t) :
    ∃ v, t = s.writeResult dr v := by
  cases i with
  | addReg | addImm | andReg | andImm | not | ld | ldi | ldr | lea => cases hd; cases h; exact ⟨_, rfl⟩
  | _ => cases hd

theorem regsWritten_of_flagDest {i : Instr} {dr : Reg} (hd : flagDest i = some dr) :
    regsWritten i = [.gpr dr, .COND] := by
  cases i <;> cases hd <;> rfl

theorem COND_notMem_regsWritten {i : Instr} (hd : flagDest i = none) : RegId.COND ∉ regsWritten i := by
  cases i <;> cases hd <;> simp [regsWritten]

theorem PC_notMem_regsWritten {i : Instr} (h : i.opcode ∉ [Opcode.BR, .JMP, .JSR, .TRAP]) : RegId.PC ∉ regsWritten i := by
  revert h
  cases i <;> simp [regsWritten, Instr.opcode]

theorem ne_trap_of_opcode {i : Instr} (h : i.opcode ≠ .TRAP) : ∀ vec, i ≠ .trap vec :=
  fun _ e => h (congrArg Instr.opcode e)

theorem execBr_onlyRegsChange {m : BitVec 3} {o : BitVec 9} {s t : State} (h : exec (.br m o) s = .next t) :
    OnlyRegsChange [.PC] s t := by
  simp only [exec, execBr, Host.Outcome.next.injEq] at h
  subst h
  split
  · exact State.writeReg_onlyRegsChange s .PC _
  · exact OnlyRegsChange.refl _ s

/-- The register frame, by the flag setters' common end, the jumps and the stores. -/
theorem exec_regFrame {i : Instr} {s t : State} (hi : ∀ vec, i ≠ .trap vec) (h : exec i s = .next t) :
    SameRegsExcept (regsWritten i) s t ∧ SameEnvironment s t := by
  cases hd : flagDest i with
  | some dr =>
    obtain ⟨v, rfl⟩ := exec_flagSetter hd h
    obtain ⟨-, -, hregs, -, henv⟩ := State.writeResult_effect s dr v
    exact ⟨regsWritten_of_flagDest hd ▸ hregs, henv⟩
  | none =>
    cases i with
    | br => exact (execBr_onlyRegsChange h).regFrame
    | jmp => cases h; exact (State.writeReg_onlyRegsChange s .PC _).regFrame
    | jsr | jsrr => cases h; exact (State.link_setPc_onlyRegsChange s _).regFrame
    | st | sti | str => cases h; exact ⟨fun r _ => State.readReg_memWrite _ _ _ r, rfl, rfl⟩
    | trap vec => exact absurd rfl (hi vec)
    | rti | res => cases h
    | _ => cases hd

/-- Settles O35: each instruction of the core keeps every register outside its row. -/
theorem handlersKeepRegisterFrame : Obligations.HandlersKeepRegisterFrame :=
  fun _ _ _ => exec_regFrame

/-! ### COND -/

/-- The Flag Evaluator's three cases in terms of the unsigned value (10_state.md R29). -/
theorem condOf_eq_toNat (v : Word) :
    condOf v = if v.toNat = 0 then 0x0002#16 else if 0x8000 ≤ v.toNat then 0x0004#16 else 0x0001#16 := by
  have hzero : v = 0x0000#16 ↔ v.toNat = 0 := BitVec.toNat_inj.symm
  have hsign : v.getLsbD 15 = decide (0x8000 ≤ v.toNat) := by
    rw [← BitVec.msb_eq_getLsbD_last v, BitVec.msb_eq_decide]
  simp only [condOf, condZRO, condNEG, condPOS, hzero, hsign, decide_eq_true_eq]

theorem condLegal_condOf (v : Word) : condLegal (condOf v) := by
  rcases condOf_matches v with ⟨-, h⟩ | ⟨-, h⟩ | ⟨-, h⟩ <;> simp [condLegal, h]

theorem exec_cond_of_flagDest {i : Instr} {s t : State} {dr : Reg} (hd : flagDest i = some dr) (h : exec i s = .next t) :
    t.cond = condOf (t.gpr dr) := by
  obtain ⟨v, rfl⟩ := exec_flagSetter hd h
  simp

theorem exec_cond_of_no_flagDest {i : Instr} {s t : State} (hd : flagDest i = none) (hi : ∀ vec, i ≠ .trap vec)
    (h : exec i s = .next t) : t.cond = s.cond :=
  (exec_regFrame hi h).1 .COND (COND_notMem_regsWritten hd)

/-- All that the core does to COND: nothing, or the code of a register's final value. -/
theorem exec_cond_cases {i : Instr} {s t : State} (hi : ∀ vec, i ≠ .trap vec) (h : exec i s = .next t) :
    t.cond = s.cond ∨ ∃ dr, t.cond = condOf (t.gpr dr) := by
  cases hd : flagDest i with
  | some dr => exact .inr ⟨dr, exec_cond_of_flagDest hd h⟩
  | none => exact .inl (exec_cond_of_no_flagDest hd hi h)

/-- Settles O29: `condOf` by the unsigned value, and COND's two cases after a handler. -/
theorem flagEvaluatorSetsCond : Obligations.FlagEvaluatorSetsCond :=
  ⟨fun s i => ⟨condOf_eq_toNat (s.gpr i), State.writeReg_onlyRegsChange s .COND _⟩, fun _ _ _ => exec_cond_cases⟩

/-- The call count takes no part in the environment's writes. -/
theorem State.envAccesses_setTrapCalls (s : State) (n : Nat) (l : List EnvAccess) :
    { s with trapCalls := n }.envAccesses l = { s.envAccesses l with trapCalls := n } := by
  induction l generalizing s with
  | nil => rfl
  | cons a rest ih =>
    have hhead : { s with trapCalls := n }.envAccess a = { s.envAccess a with trapCalls := n } := by
      cases a with
      | writeReg r v => cases r <;> rfl
      | writeMem a v => rfl
      | raiseHalt => rfl
    rw [State.envAccesses_cons, State.envAccesses_cons, hhead, ih]

/-- COND before an instruction that does not read it shows up afterwards as it was, or not at all. -/
theorem exec_setCond {i : Instr} {s t : State} (c : Word) (hbr : i.opcode ≠ .BR) (htrap : i.opcode ≠ .TRAP)
    (h : exec i s = .next t) : exec i (s.setCond c) = .next t ∨ exec i (s.setCond c) = .next (t.setCond c) := by
  cases i with
  | br => exact absurd rfl hbr
  | trap => exact absurd rfl htrap
  | rti | res => cases h
  | st | sti | str | jmp | jsr | jsrr => cases h; exact .inr rfl
  | _ => cases h; exact .inl rfl

/-- Settles O30: the flag setters' common end, the frame of the others, TRAP's writes, and `exec_setCond`. -/
theorem flagSettersAloneWriteCond : Obligations.FlagSettersAloneWriteCond := by
  refine ⟨fun i s t dr hd h => ?_, fun i s t hd => exec_cond_of_no_flagDest hd, fun vec s => ⟨_, rfl, ?_⟩,
    fun i s t c hbr htrap h => ?_⟩
  · rw [exec_cond_of_flagDest hd h]
    exact condOf_matches _
  · rw [State.trapCall, State.envAccesses_setTrapCalls]
  · rcases exec_setCond c hbr htrap h with h' | h'
    · exact ⟨t, h', fun _ _ => rfl, fun _ => rfl⟩
    · exact ⟨t.setCond c, h', fun r hr => State.readReg_setCond_other hr t c, fun _ => rfl⟩

/-- Settles O45: a step keeps COND, or sets it to a condition code. -/
theorem stepKeepsCondLegal : Obligations.StepKeepsCondLegal := by
  refine ⟨.inl rfl, fun s t hs hop hstep => ?_⟩
  cases hhalt : s.halt with
  | true =>
    rw [step_halted hhalt] at hstep
    cases hstep
    exact hs
  | false =>
    rw [step_running hhalt] at hstep
    rcases exec_cond_cases (ne_trap_of_opcode hop) hstep with h | ⟨dr, h⟩
    · exact h ▸ hs
    · exact h ▸ condLegal_condOf _

/-! ### Sequential flow -/

theorem State.advancePc_pc_toNat (s : State) : s.advancePc.pc.toNat = (s.pc.toNat + 1) % 65536 :=
  BitVec.toNat_add s.pc 1#16

theorem exec_br_not_taken {m : BitVec 3} {s : State} (o : BitVec 9) (h : brTaken m s.cond = false) :
    exec (.br m o) s = .next s := by
  simp [exec, execBr, h]

/-- Settles O39: without a transfer `pc` is outside the instruction's row, so the fetch's increment stays. -/
theorem sequentialFlowIsFetchIncrement : Obligations.SequentialFlowIsFetchIncrement := by
  intro s t hhalt hstep
  rw [step_running hhalt] at hstep
  refine ⟨fun hop => ?_, fun m o hdec htaken => ?_⟩
  · have hi : ∀ vec, decode s.fetchWord ≠ .trap vec := ne_trap_of_opcode fun e => hop (by rw [← State.fetchWord, e]; simp)
    have hpc : t.pc = s.advancePc.pc := (exec_regFrame hi hstep).1 .PC (PC_notMem_regsWritten hop)
    rw [hpc, State.advancePc_pc_toNat]
  · rw [State.fetchWord, hdec, exec_br_not_taken (s := s.advancePc) o htaken] at hstep
    cases hstep
    exact s.advancePc_pc_toNat

/-! ### What an instruction's effects depend on -/

/-- The flag-setting end leaves in its two registers what the value alone says. -/
theorem State.writeResult_agree {v v' : Word} (s s' : State) (dr : Reg) (h : v' = v) :
    ∀ r ∈ [RegId.gpr dr, .COND], (s'.writeResult dr v').readReg r = (s.writeResult dr v).readReg r := by
  simp [h]

theorem State.link_gpr (s : State) (b : Reg) : s.link.gpr b = if b = .R7 then s.pc else s.gpr b := by
  split
  · next h => subst h; rfl
  · next h => exact State.gpr_setGpr_other h s s.pc

theorem pcAddr9_congr {s s' : State} (h : s'.pc = s.pc) (o : BitVec 9) : pcAddr9 s' o = pcAddr9 s o := by
  rw [pcAddr9, h, pcAddr9]

theorem baseAddr_congr {b : Reg} {s s' : State} (h : s'.gpr b = s.gpr b) (o : BitVec 6) :
    baseAddr s' b o = baseAddr s b o := by
  rw [baseAddr, h, baseAddr]

/-- Two states that agree on `pc` and on the pointer's cell form the same indirect address. -/
theorem indirectAddr_congr {s s' : State} {o : BitVec 9} (h : s'.pc = s.pc)
    (hm : s'.memRead (pcAddr9 s o) = s.memRead (pcAddr9 s o)) : indirectAddr s' o = indirectAddr s o := by
  rw [indirectAddr, pcAddr9_congr h, hm, indirectAddr]

section DependsOnReads

variable {i : Instr} {s s' : State} (hr : ∀ r ∈ regsRead i, s'.readReg r = s.readReg r)
  (hm : ∀ a, Access.read a ∈ dataAccesses i s → s'.memRead a = s.memRead a)
include hr hm

/-- The pointer of LDI and STI is itself one of the cells read, so the address it holds agrees too (20_memory.md R67). -/
theorem dataAccesses_congr : dataAccesses i s' = dataAccesses i s := by
  cases i with
  | ld | st =>
    simp only [regsRead, List.forall_mem_cons, State.readReg_PC, State.readReg_gpr] at hr
    simp only [dataAccesses, pcAddr9_congr hr.1, hr]
  | ldr | str =>
    simp only [regsRead, List.forall_mem_cons, State.readReg_gpr] at hr
    simp only [dataAccesses, baseAddr_congr hr.1, hr]
  | ldi dr o | sti sr o =>
    simp only [regsRead, List.forall_mem_cons, State.readReg_PC, State.readReg_gpr] at hr
    have hptr := indirectAddr_congr hr.1 (hm (pcAddr9 s o) (by simp [dataAccesses]))
    simp only [dataAccesses, pcAddr9_congr hr.1, hptr, hr]
  | _ => rfl

theorem exec_regsWritten_congr {t : State} (hi : ∀ vec, i ≠ .trap vec) (h : exec i s = .next t) :
    ∃ t', exec i s' = .next t' ∧ ∀ r ∈ regsWritten i, t'.readReg r = t.readReg r := by
  cases i with
  | trap vec => exact absurd rfl (hi vec)
  | rti | res => cases h
  | st | sti | str => exact ⟨_, rfl, by simp [regsWritten]⟩
  | addReg | addImm | andReg | andImm | not =>
    cases h
    simp only [regsRead, List.forall_mem_cons, State.readReg_gpr] at hr
    exact ⟨_, rfl, State.writeResult_agree s s' _ (by simp only [hr])⟩
  | lea dr o =>
    cases h
    exact ⟨_, rfl, State.writeResult_agree s s' dr (pcAddr9_congr (hr .PC (by simp [regsRead])) o)⟩
  | ld dr o =>
    cases h
    have haddr : pcAddr9 s' o = pcAddr9 s o := pcAddr9_congr (hr .PC (by simp [regsRead])) o
    exact ⟨_, rfl, State.writeResult_agree s s' dr ((congrArg s'.memRead haddr).trans (hm _ (by simp [dataAccesses])))⟩
  | ldi dr o =>
    cases h
    have haddr : indirectAddr s' o = indirectAddr s o :=
      indirectAddr_congr (hr .PC (by simp [regsRead])) (hm _ (by simp [dataAccesses]))
    exact ⟨_, rfl, State.writeResult_agree s s' dr ((congrArg s'.memRead haddr).trans (hm _ (by simp [dataAccesses])))⟩
  | ldr dr b o =>
    cases h
    have haddr : baseAddr s' b o = baseAddr s b o := baseAddr_congr (hr (.gpr b) (by simp [regsRead])) o
    exact ⟨_, rfl, State.writeResult_agree s s' dr ((congrArg s'.memRead haddr).trans (hm _ (by simp [dataAccesses])))⟩
  | br m o =>
    cases h
    have hcond : s'.cond = s.cond := hr .COND (by simp [regsRead])
    have hpc : s'.pc = s.pc := hr .PC (by simp [regsRead])
    refine ⟨_, rfl, ?_⟩
    simp only [regsWritten, List.forall_mem_singleton, State.readReg_PC, hcond]
    split
    · exact pcAddr9_congr hpc o
    · exact hpc
  | jmp | jsr | jsrr =>
    cases h
    simp only [regsRead, List.forall_mem_cons, State.readReg_PC, State.readReg_gpr] at hr
    exact ⟨_, rfl, by simp [regsWritten, pcAddr11, State.link_gpr, hr]⟩

end DependsOnReads

/-- Settles O36: the accesses by `dataAccesses_congr`, the registers written by `exec_regsWritten_congr`. -/
theorem handlersDependOnlyOnTheirReads : Obligations.HandlersDependOnlyOnTheirReads := by
  intro i s s' t hi hr hm h
  obtain ⟨t', hexec, hregs⟩ := exec_regsWritten_congr hr hm hi h
  exact ⟨t', hexec, dataAccesses_congr hr hm, hregs⟩

end Sys2Proof.Machine

/-! PROOF. Memory (20_memory.md R50 to R65): the canonical form under every step, its extensionality, the addresses an
instruction forms, and which instructions write a cell. -/

namespace Sys2Proof.Machine

/-! ### The canonical form -/

theorem exec_canonical {i : Instr} {s t : State} (hs : s.mem.wf = true) (h : exec i s = .next t) : t.mem.wf = true := by
  rcases exec_mem_cases h with hmem | ⟨a, v, -, rfl⟩ | ⟨vec, -, rfl⟩
  · exact hmem ▸ hs
  · exact State.memWrite_canonical hs a v
  · exact State.trapCall_canonical hs vec

/-- Settles O42: a halted step changes nothing, and the handler of a running one keeps the form. -/
theorem stepKeepsMemoryCanonical : Obligations.StepKeepsMemoryCanonical := by
  intro s t hs hstep
  cases hhalt : s.halt with
  | true =>
    rw [step_halted hhalt] at hstep
    cases hstep
    exact hs
  | false =>
    rw [step_running hhalt] at hstep
    exact exec_canonical (s := s.advancePc) hs hstep

/-- Settles O43: at reset nothing is listed. -/
theorem resetMemoryIsCanonical : Obligations.ResetMemoryIsCanonical :=
  ⟨reset_mem_wf, rfl⟩

/-! ### Canonical memories that read alike -/

theorem Memory.read_below_of_wfFrom {low a : Nat} {m : Memory} (w : Memory.wfFrom low m = true) (h : a < low) :
    m.read a = Config.unlistedCell := by
  induction m generalizing low with
  | nil => rfl
  | cons c rest ih =>
    obtain ⟨k, v⟩ := c
    obtain ⟨hlow, -, -, hrest⟩ := Memory.wfFrom_cons.1 w
    rw [Memory.read, if_neg (by omega)]
    exact ih hrest (by omega)

theorem Memory.read_head (k : Nat) (v : Word) (rest : Memory) : Memory.read ((k, v) :: rest) k = v :=
  if_pos rfl

/-- Canonical memories with the same first address read alike behind it where they read alike. -/
theorem Memory.read_tail_eq_of_read_eq {k a : Nat} {v v' : Word} {rest rest' : Memory}
    (w : Memory.wfFrom (k + 1) rest = true) (w' : Memory.wfFrom (k + 1) rest' = true)
    (h : Memory.read ((k, v) :: rest) a = Memory.read ((k, v') :: rest') a) : Memory.read rest a = Memory.read rest' a := by
  rcases Nat.lt_or_ge k a with hlt | hge
  · simpa only [Memory.read, if_neg (Nat.ne_of_lt hlt)] using h
  · have hbelow : a < k + 1 := Nat.lt_succ_of_le hge
    rw [Memory.read_below_of_wfFrom w hbelow, Memory.read_below_of_wfFrom w' hbelow]

/-- A cell listed first differs from every unlisted one, so a canonical memory that reads alike there starts no later. -/
theorem Memory.head_le_of_read_eq {low low' k k' : Nat} {v v' : Word} {rest rest' : Memory}
    (w : Memory.wfFrom low ((k, v) :: rest) = true) (w' : Memory.wfFrom low' ((k', v') :: rest') = true)
    (h : Memory.read ((k, v) :: rest) k = Memory.read ((k', v') :: rest') k) : k' ≤ k := by
  by_contra hlt
  obtain ⟨-, -, hv, -⟩ := Memory.wfFrom_cons.1 w
  obtain ⟨-, hk', hv', hrest'⟩ := Memory.wfFrom_cons.1 w'
  have hbelow := Memory.read_below_of_wfFrom (Memory.wfFrom_cons.2 ⟨Nat.le_refl k', hk', hv', hrest'⟩)
    (Nat.lt_of_not_le hlt)
  exact hv (by rw [← Memory.read_head k v rest, h, hbelow])

theorem Memory.wfFrom_ext {low : Nat} {m m' : Memory} (w : Memory.wfFrom low m = true) (w' : Memory.wfFrom low m' = true)
    (h : ∀ a < memSize, m.read a = m'.read a) : m = m' := by
  induction m generalizing low m' with
  | nil =>
    cases m' with
    | nil => rfl
    | cons c' rest' =>
      obtain ⟨k', v'⟩ := c'
      obtain ⟨-, hk', hv', -⟩ := Memory.wfFrom_cons.1 w'
      exact absurd ((Memory.read_head k' v' rest').symm.trans (h k' hk').symm) hv'
  | cons c rest ih =>
    obtain ⟨k, v⟩ := c
    obtain ⟨-, hk, hv, hrest⟩ := Memory.wfFrom_cons.1 w
    cases m' with
    | nil => exact absurd ((Memory.read_head k v rest).symm.trans (h k hk)) hv
    | cons c' rest' =>
      obtain ⟨k', v'⟩ := c'
      obtain ⟨-, hk', -, hrest'⟩ := Memory.wfFrom_cons.1 w'
      obtain rfl : k = k' :=
        Nat.le_antisymm (Memory.head_le_of_read_eq w' w (h k' hk').symm) (Memory.head_le_of_read_eq w w' (h k hk))
      obtain rfl : v = v' := by simpa only [Memory.read_head] using h k hk
      rw [ih hrest hrest' fun a ha => Memory.read_tail_eq_of_read_eq hrest hrest' (h a ha)]

/-- Settles O44: by `wfFrom_ext`, each address below `memSize` being a word's number. -/
theorem canonicalMemoriesAreExtensional : Obligations.CanonicalMemoriesAreExtensional :=
  fun _ _ w w' h => Memory.wfFrom_ext w w' fun a ha => h (BitVec.ofNatLT a ha)

/-! ### The addresses an instruction forms -/

/-- A word plus a sign-extended field is their sum as numbers, modulo 65536 (20_memory.md R53). -/
theorem toNat_add_sext {n : Nat} (base : Word) (off : BitVec n) : (base + sext off).toNat = wrapSum base off.toInt := by
  have hsext : (sext off).toNat = (off.toInt % 65536).toNat := BitVec.toNat_ofInt _
  rw [BitVec.toNat_add, hsext, wrapSum]
  omega

/-- Settles O33: each address form is a word plus a sign-extended field, by `toNat_add_sext`. -/
theorem addressesWrapModulo65536 : Obligations.AddressesWrapModulo65536 :=
  ⟨fun s off => ⟨toNat_add_sext s.pc off, rfl⟩, fun s off => toNat_add_sext s.pc off,
    fun s b off => toNat_add_sext (s.gpr b) off, State.advancePc_pc_toNat,
    fun _ => show 0xFFFF#16 + 1#16 = 0x0000#16 by decide⟩

/-! ### The cell a store writes -/

theorem State.memWrite_effect (s : State) (a v : Word) : StoredWord a v s (s.memWrite a v) :=
  ⟨State.memRead_memWrite_same s a v, fun _ hb => State.memRead_memWrite_other (by simpa using hb) s v,
    fun r _ => State.readReg_memWrite s a v r, rfl, rfl⟩

/-- Settles O31: the effect of the one memory write. -/
theorem memoryReadsBackWrites : Obligations.MemoryReadsBackWrites :=
  State.memWrite_effect

theorem opcode_of_write_mem_dataAccesses {i : Instr} {s : State} {a v : Word} (h : Access.write a v ∈ dataAccesses i s) :
    i.opcode = .ST ∨ i.opcode = .STI ∨ i.opcode = .STR := by
  cases i with
  | st => exact .inl rfl
  | sti => exact .inr (.inl rfl)
  | str => exact .inr (.inr rfl)
  | _ => simp [dataAccesses] at h

/-- The access list of a store holds exactly one write. -/
theorem dataAccesses_write_iff_of_store {i : Instr} (hi : i.opcode = .ST ∨ i.opcode = .STI ∨ i.opcode = .STR) (s : State) :
    ∃ a v, ∀ b w, Access.write b w ∈ dataAccesses i s ↔ b = a ∧ w = v := by
  cases i with
  | st r o => exact ⟨pcAddr9 s o, s.gpr r, by simp [dataAccesses]⟩
  | sti r o => exact ⟨indirectAddr s o, s.gpr r, by simp [dataAccesses]⟩
  | str r b o => exact ⟨baseAddr s b o, s.gpr r, by simp [dataAccesses]⟩
  | _ => simp [Instr.opcode] at hi

/-- An instruction whose access list holds a write does that write and nothing else. -/
theorem exec_of_write_mem_dataAccesses {i : Instr} {s : State} {a v : Word} (h : Access.write a v ∈ dataAccesses i s) :
    exec i s = .next (s.memWrite a v) := by
  cases i with
  | st | sti | str =>
    obtain ⟨rfl, rfl⟩ : a = _ ∧ v = _ := by simpa [dataAccesses] using h
    rfl
  | _ => simp [dataAccesses] at h

/-- Settles O34: of the three effects on memory only a store's and TRAP's change a cell, and a store's is its one write. -/
theorem onlyStoresChangeMemory : Obligations.OnlyStoresChangeMemory := by
  refine ⟨fun i s t hst hsti hstr htrap h b => ?_, fun i s hi => ?_⟩
  · rcases exec_mem_cases h with hmem | ⟨a, v, hw, -⟩ | ⟨vec, rfl, -⟩
    · rw [State.memRead, hmem, State.memRead]
    · rcases opcode_of_write_mem_dataAccesses hw with e | e | e
      · exact absurd e hst
      · exact absurd e hsti
      · exact absurd e hstr
    · exact absurd rfl htrap
  · obtain ⟨a, v, hiff⟩ := dataAccesses_write_iff_of_store hi s
    have hw : Access.write a v ∈ dataAccesses i s := (hiff a v).2 ⟨rfl, rfl⟩
    exact ⟨_, a, v, exec_of_write_mem_dataAccesses hw, hw, fun b w => (hiff b w).1, State.memWrite_effect s a v⟩

/-! ### A stored word fetched next -/

theorem write_mem_stepAccesses_iff {s : State} {a v : Word} (h : s.halt = false) :
    Access.write a v ∈ stepAccesses s ↔ Access.write a v ∈ dataAccesses (decode s.fetchWord) s.advancePc := by
  simp [stepAccesses, h]

/-- Settles O40: the step's only effect after the fetch is the write, and the next fetch reads the cell written. -/
theorem storeIsSeenByNextFetch : Obligations.StoreIsSeenByNextFetch := by
  intro s t a v hhalt hw hstep hpc
  rw [step_running hhalt, exec_of_write_mem_dataAccesses ((write_mem_stepAccesses_iff hhalt).1 hw)] at hstep
  cases hstep
  have hhalt' : (s.advancePc.memWrite a v).halt = false := hhalt
  have hfetch : (s.advancePc.memWrite a v).fetchWord = v := by
    rw [State.fetchWord, hpc, State.memRead_memWrite_same]
  exact ⟨hhalt', hfetch, by rw [step_running hhalt', hfetch, execute]⟩

end Sys2Proof.Machine

/-! PROOF. The encoding (30_encoding.md R81 to R93): decoding an encoding, encoding a decoding, the opcode map, unused bits. -/

namespace Sys2Proof

open BitVec

/-! ### A word as its fields (30_encoding.md R82): the fields of a concatenation, and the concatenation of a word's fields.
A lemma's name gives the widths of the fields below the opcode. -/

section Layouts

variable (op : BitVec 4) (w : Word)

theorem fields_12 (u : BitVec 12) : (op ++ u : Word).extractLsb' 0 12 = u := extractLsb'_append_eq_right

theorem fields_4_8 (z : BitVec 4) (v : BitVec 8) : (op ++ z ++ v : Word).extractLsb' 0 8 = v := extractLsb'_append_eq_right

theorem fields_3_9 (a : BitVec 3) (o : BitVec 9) :
    (op ++ a ++ o : Word).extractLsb' 9 3 = a ∧ (op ++ a ++ o : Word).extractLsb' 0 9 = o := by
  constructor <;> ext k <;> grind

theorem fields_1_11 (f : BitVec 1) (o : BitVec 11) :
    (op ++ f ++ o : Word)[11] = f[0] ∧ (op ++ f ++ o : Word).extractLsb' 0 11 = o :=
  ⟨by grind, extractLsb'_append_eq_right⟩

theorem fields_1_2_9 (f : BitVec 1) (b : BitVec 2) (z : BitVec 9) :
    (op ++ f ++ b ++ z : Word)[11] = f[0] ∧ (op ++ f ++ b ++ z : Word).extractLsb' 9 2 = b :=
  ⟨by grind, by ext k; grind⟩

theorem fields_3_3_6 (a b : BitVec 3) (o : BitVec 6) :
    (op ++ a ++ b ++ o : Word).extractLsb' 9 3 = a ∧ (op ++ a ++ b ++ o : Word).extractLsb' 6 3 = b ∧
    (op ++ a ++ b ++ o : Word).extractLsb' 0 6 = o := by
  refine ⟨?_, ?_, ?_⟩ <;> ext k <;> grind

theorem fields_3_3_1_5 (a b : BitVec 3) (f : BitVec 1) (n : BitVec 5) :
    (op ++ a ++ b ++ f ++ n : Word).extractLsb' 9 3 = a ∧ (op ++ a ++ b ++ f ++ n : Word).extractLsb' 6 3 = b ∧
    (op ++ a ++ b ++ f ++ n : Word)[5] = f[0] ∧ (op ++ a ++ b ++ f ++ n : Word).extractLsb' 0 5 = n :=
  ⟨by ext k; grind, by ext k; grind, by grind, extractLsb'_append_eq_right⟩

theorem fields_3_3_1_2_3 (a b c : BitVec 3) (f : BitVec 1) (z : BitVec 2) :
    (op ++ a ++ b ++ f ++ z ++ c : Word).extractLsb' 9 3 = a ∧ (op ++ a ++ b ++ f ++ z ++ c : Word).extractLsb' 6 3 = b ∧
    (op ++ a ++ b ++ f ++ z ++ c : Word)[5] = f[0] ∧
    (op ++ a ++ b ++ f ++ z ++ c : Word).extractLsb' 0 3 = c :=
  ⟨by ext k; grind, by ext k; grind, by grind, extractLsb'_append_eq_right⟩

theorem join_12 : w.extractLsb' 12 4 ++ w.extractLsb' 0 12 = w := extractLsb'_append_extractLsb'

theorem join_4_8 : w.extractLsb' 12 4 ++ w.extractLsb' 8 4 ++ w.extractLsb' 0 8 = w := by
  ext k; grind

theorem join_3_9 : w.extractLsb' 12 4 ++ w.extractLsb' 9 3 ++ w.extractLsb' 0 9 = w := by
  ext k; grind

theorem join_1_11 : w.extractLsb' 12 4 ++ w.extractLsb' 11 1 ++ w.extractLsb' 0 11 = w := by
  ext k; grind

theorem join_1_2_9 : w.extractLsb' 12 4 ++ w.extractLsb' 11 1 ++ w.extractLsb' 9 2 ++ w.extractLsb' 0 9 = w := by
  ext k; grind

theorem join_3_3_6 : w.extractLsb' 12 4 ++ w.extractLsb' 9 3 ++ w.extractLsb' 6 3 ++ w.extractLsb' 0 6 = w := by
  ext k; grind

theorem join_3_3_1_5 :
    w.extractLsb' 12 4 ++ w.extractLsb' 9 3 ++ w.extractLsb' 6 3 ++ w.extractLsb' 5 1 ++ w.extractLsb' 0 5 = w := by
  ext k; grind

theorem join_3_3_1_2_3 :
    w.extractLsb' 12 4 ++ w.extractLsb' 9 3 ++ w.extractLsb' 6 3 ++ w.extractLsb' 5 1 ++ w.extractLsb' 3 2 ++
      w.extractLsb' 0 3 = w := by
  ext k; grind

theorem join_1_5_1_5 :
    w.extractLsb' 12 4 ++ w.extractLsb' 11 1 ++ w.extractLsb' 6 5 ++ w.extractLsb' 5 1 ++ w.extractLsb' 0 5 = w := by
  ext k; grind

end Layouts

/-! ### Unused bits cleared: a word under the mask of its used bits (30_encoding.md R88) -/

section Clearing

variable (w : Word)

theorem and_trapUsed : w &&& 0xF0FF#16 = w.extractLsb' 12 4 ++ 0#4 ++ w.extractLsb' 0 8 := by
  have h := congrArg (· &&& (allOnes 4 ++ 0#4 ++ allOnes 8)) (join_4_8 w)
  simp only [and_append, and_allOnes, and_zero] at h
  exact h.symm

theorem and_jsrrUsed : w &&& 0xFE00#16 = w.extractLsb' 12 4 ++ w.extractLsb' 11 1 ++ w.extractLsb' 9 2 ++ 0#9 := by
  have h := congrArg (· &&& (allOnes 4 ++ allOnes 1 ++ allOnes 2 ++ 0#9)) (join_1_2_9 w)
  simp only [and_append, and_allOnes, and_zero] at h
  exact h.symm

theorem and_jmpUsed : w &&& 0xF1C0#16 = w.extractLsb' 12 4 ++ 0#3 ++ w.extractLsb' 6 3 ++ 0#6 := by
  have h := congrArg (· &&& (allOnes 4 ++ 0#3 ++ allOnes 3 ++ 0#6)) (join_3_3_6 w)
  simp only [and_append, and_allOnes, and_zero] at h
  exact h.symm

theorem and_notUsed : w &&& 0xFFC0#16 = w.extractLsb' 12 4 ++ w.extractLsb' 9 3 ++ w.extractLsb' 6 3 ++ 0#6 := by
  have h := congrArg (· &&& (allOnes 4 ++ allOnes 3 ++ allOnes 3 ++ 0#6)) (join_3_3_6 w)
  simp only [and_append, and_allOnes, and_zero] at h
  exact h.symm

theorem and_regFormUsed : w &&& 0xFFE7#16 =
    w.extractLsb' 12 4 ++ w.extractLsb' 9 3 ++ w.extractLsb' 6 3 ++ w.extractLsb' 5 1 ++ 0#2 ++ w.extractLsb' 0 3 := by
  have h := congrArg (· &&& (allOnes 4 ++ allOnes 3 ++ allOnes 3 ++ allOnes 1 ++ 0#2 ++ allOnes 3)) (join_3_3_1_2_3 w)
  simp only [and_append, and_allOnes, and_zero] at h
  exact h.symm

/-- The bits that the rows of the opcode map test are the opcode and the two mode bits (30_encoding.md R85, R87). -/
theorem and_formBits : w &&& 0xF820#16 =
    w.extractLsb' 12 4 ++ w.extractLsb' 11 1 ++ 0#5 ++ w.extractLsb' 5 1 ++ 0#5 := by
  have h := congrArg (· &&& (allOnes 4 ++ allOnes 1 ++ 0#5 ++ allOnes 1 ++ 0#5)) (join_1_5_1_5 w)
  simp only [and_append, and_allOnes, and_zero] at h
  exact h.symm

end Clearing

/-! ### Decoding an encoding -/

theorem opcodeField_encode : ∀ i : Instr, opcodeField (encode i) = i.opcode
  | .br m o => Laws.EncodedForm.br m o
  | .addReg d a b => Laws.EncodedForm.addReg d a b
  | .addImm d a n => Laws.EncodedForm.addImm d a n
  | .ld d o => Laws.EncodedForm.ld d o
  | .st r o => Laws.EncodedForm.st r o
  | .jsrr b => Laws.EncodedForm.jsrr b
  | .jsr o => Laws.EncodedForm.jsr o
  | .andReg d a b => Laws.EncodedForm.andReg d a b
  | .andImm d a n => Laws.EncodedForm.andImm d a n
  | .ldr d b o => Laws.EncodedForm.ldr d b o
  | .str r b o => Laws.EncodedForm.str r b o
  | .rti u => Laws.EncodedForm.rti u
  | .not d r => Laws.EncodedForm.not d r
  | .ldi d o => Laws.EncodedForm.ldi d o
  | .sti r o => Laws.EncodedForm.sti r o
  | .jmp b => Laws.EncodedForm.jmp b
  | .res u => Laws.EncodedForm.res u
  | .lea d o => Laws.EncodedForm.lea d o
  | .trap v => Laws.EncodedForm.trap v

/-- The two-bit base field holds all of R0 to R3 (30_encoding.md R83). -/
theorem Reg.ofBits_lowTwo {r : Reg} (h : r.lowFour = true) : Reg.ofBits ((r.toBits.extractLsb' 0 2).zeroExtend 3) = r := by
  revert r; rintro (_ | _) <;> decide

/-- Settles O49: the opcode by `opcodeField_encode`, then each operand by the fields of its form. -/
theorem decodeInvertsEncode : Obligations.DecodeInvertsEncode := by
  intro i hwf
  rw [decode, opcodeField_encode]
  cases i with
  | br m o => simp only [Instr.opcode, encode, offset9Field, fields_3_9]
  | ld r o | st r o | ldi r o | sti r o | lea r o =>
    simp only [Instr.opcode, encode, regField11, offset9Field, fields_3_9, Reg.ofBits_toBits]
  | addReg d a b | andReg d a b =>
    simp [Instr.opcode, encode, regField11, regField8, regField2, fields_3_3_1_2_3]
  | addImm d a n | andImm d a n =>
    simp [Instr.opcode, encode, regField11, regField8, fields_3_3_1_5]
  | ldr r b o | str r b o | not d r =>
    simp only [Instr.opcode, encode, regField11, regField8, fields_3_3_6, Reg.ofBits_toBits]
  | jmp b => simp only [Instr.opcode, encode, regField8, fields_3_3_6, Reg.ofBits_toBits]
  | jsr o => simp [Instr.opcode, encode, fields_1_11]
  | jsrr b => simp [Instr.opcode, encode, jsrBaseField, fields_1_2_9, Reg.ofBits_lowTwo hwf]
  | rti u | res u => simp only [Instr.opcode, encode, fields_12]
  | trap v => simp only [Instr.opcode, encode, fields_4_8]

/-! ### Encoding a decoding -/

theorem decode_wf (w : Word) : (decode w).wf = true := by
  cases h : opcodeField w with
  | JSR => simp only [decode, h]; split; exacts [rfl, jsrBaseField_lowFour w]
  | ADD | AND => simp only [decode, h]; split <;> rfl
  | _ => simp only [decode, h, Instr.wf]

theorem ofBool_eq_extractLsb' {w : Word} {k : Nat} {b : Bool} (h : w.getLsbD k = b) : ofBool b = w.extractLsb' k 1 := by
  ext j hj; simp [← h, Nat.lt_one_iff.1 hj]

theorem jsrBaseField_toBits_low (w : Word) : (jsrBaseField w).toBits.extractLsb' 0 2 = w.extractLsb' 9 2 := by
  rw [jsrBaseField, Reg.toBits_ofBits]; ext k; grind

theorem encode_decode (w : Word) : encode (decode w) = w &&& usedBits (decode w) := by
  have hop : (opcodeField w).toBits = w.extractLsb' 12 4 := Opcode.toBits_ofBits _
  have hfull : w &&& 0xFFFF#16 = w := and_allOnes
  cases h : opcodeField w <;> rw [h] at hop
  case BR => simp only [decode, h, encode, usedBits, hop, offset9Field, hfull, join_3_9]
  case LD | ST | LDI | STI | LEA =>
    simp only [decode, h, encode, usedBits, hop, regField11, offset9Field, Reg.toBits_ofBits, hfull, join_3_9]
  case ADD | AND =>
    simp only [decode, h]
    split
    case isTrue h5 =>
      have hmode : 1#1 = w.extractLsb' 5 1 := ofBool_eq_extractLsb' h5
      simp only [encode, usedBits, hop, hmode, regField11, regField8, Reg.toBits_ofBits, hfull, join_3_3_1_5]
    case isFalse h5 =>
      have hmode : 0#1 = w.extractLsb' 5 1 := ofBool_eq_extractLsb' (Bool.eq_false_iff.2 h5)
      simp only [encode, usedBits, hop, hmode, regField11, regField8, regField2, Reg.toBits_ofBits, and_regFormUsed]
  case JSR =>
    simp only [decode, h]
    split
    case isTrue h11 =>
      have hmode : 1#1 = w.extractLsb' 11 1 := ofBool_eq_extractLsb' h11
      simp only [encode, usedBits, hop, hmode, hfull, join_1_11]
    case isFalse h11 =>
      have hmode : 0#1 = w.extractLsb' 11 1 := ofBool_eq_extractLsb' (Bool.eq_false_iff.2 h11)
      simp only [encode, usedBits, hop, hmode, jsrBaseField_toBits_low, and_jsrrUsed]
  case LDR | STR =>
    simp only [decode, h, encode, usedBits, hop, regField11, regField8, Reg.toBits_ofBits, hfull, join_3_3_6]
  case NOT => simp only [decode, h, encode, usedBits, hop, regField11, regField8, Reg.toBits_ofBits, and_notUsed]
  case JMP => simp only [decode, h, encode, usedBits, hop, regField8, Reg.toBits_ofBits, and_jmpUsed]
  case RTI | RES => simp only [decode, h, encode, usedBits, hop, hfull, join_12]
  case TRAP => simp only [decode, h, encode, usedBits, hop, and_trapUsed]

/-- Settles O50: the decoding is well-formed by its base field, and each form's fields make up the word's used bits. -/
theorem encodeClearsUnusedBits : Obligations.EncodeClearsUnusedBits :=
  fun w => ⟨decode_wf w, encode_decode w⟩

/-! ### The opcode map -/

/-- The row of a decoding is told by the opcode and the two mode bits (30_encoding.md R85). -/
theorem formRow_decode_congr {w w' : Word} (hop : opcodeField w' = opcodeField w) (h5 : w'.getLsbD 5 = w.getLsbD 5)
    (h11 : w'.getLsbD 11 = w.getLsbD 11) : formRow (decode w') = formRow (decode w) := by
  rw [decode, decode, hop, h5, h11]
  cases opcodeField w with
  | ADD | AND => cases w.getLsbD 5 <;> rfl
  | JSR => cases w.getLsbD 11 <;> rfl
  | _ => rfl

theorem formRow_decode_and_formBits (w : Word) : formRow (decode (w &&& 0xF820#16)) = formRow (decode w) := by
  refine formRow_decode_congr ?_ ?_ ?_
  · rw [opcodeField, opcodeField, extractLsb'_and]; congr 1; exact and_allOnes
  · rw [getLsbD_and]; exact Bool.and_true _
  · rw [getLsbD_and]; exact Bool.and_true _

theorem matches_and_formBits {r : FormRow} (hr : r ∈ formRows) (w : Word) : r.matches (w &&& 0xF820#16) = r.matches w := by
  have hmask : ∀ r ∈ formRows, 0xF820#16 &&& r.mask = r.mask := by decide
  rw [FormRow.matches, FormRow.matches, BitVec.and_assoc, hmask r hr]

/-- With the bits that no row tests at 0, the 64 words left can be gone through. -/
theorem filter_matches_formBits : ∀ (op : BitVec 4) (b11 b5 : BitVec 1),
    formRows.filter (fun r => r.matches (op ++ b11 ++ 0#5 ++ b5 ++ 0#5)) =
      [formRow (decode (op ++ b11 ++ 0#5 ++ b5 ++ 0#5))] := by
  decide

/-- Settles O51: a row tests only the opcode and the mode bits, and the decoding's row is told by them. -/
theorem everyWordMatchesOneRow : Obligations.EveryWordMatchesOneRow := by
  intro w
  calc formRows.filter (fun r => r.matches w)
      = formRows.filter (fun r => r.matches (w &&& 0xF820#16)) :=
        List.filter_congr fun r hr => (matches_and_formBits hr w).symm
    _ = [formRow (decode (w &&& 0xF820#16))] := by rw [and_formBits]; exact filter_matches_formBits _ _ _
    _ = [formRow (decode w)] := by rw [formRow_decode_and_formBits]

/-- A row that a word matches is the row of its decoding. -/
theorem formRow_decode_of_matches {r : FormRow} {w : Word} (hr : r ∈ formRows) (h : r.matches w = true) :
    formRow (decode w) = r := by
  have hmem : r ∈ formRows.filter (fun r => r.matches w) := List.mem_filter.2 ⟨hr, h⟩
  rw [everyWordMatchesOneRow w] at hmem
  exact (List.mem_singleton.1 hmem).symm

/-! ### Unused bits -/

/-- The used bits of a form, read off its row. -/
def rowUsedBits (r : FormRow) : Word :=
  if r.matchBits = 0x1000#16 ∨ r.matchBits = 0x5000#16 then 0xFFE7#16
  else if r.matchBits = 0x9000#16 then 0xFFC0#16
  else if r.matchBits = 0xC000#16 then 0xF1C0#16
  else if r.matchBits = 0x4000#16 then 0xFE00#16
  else if r.matchBits = 0xF000#16 then 0xF0FF#16
  else 0xFFFF#16

theorem usedBits_eq_rowUsedBits (i : Instr) : usedBits i = rowUsedBits (formRow i) := by
  cases i <;> rfl

theorem formRow_mem_formRows (i : Instr) : formRow i ∈ formRows := by
  cases i <;> simp [formRows, formRow]

/-- Settles O52: both words are of one form, so they encode back to the same word (O50), and a word is the encoding of one
instruction (O49). -/
theorem unusedBitsAreIgnored : Obligations.UnusedBitsAreIgnored := by
  intro w w' hmatch hused
  have hrow : formRow (decode w') = formRow (decode w) := formRow_decode_of_matches (formRow_mem_formRows _) hmatch
  have hbits : usedBits (decode w') = usedBits (decode w) := by rw [usedBits_eq_rowUsedBits, hrow, ← usedBits_eq_rowUsedBits]
  have hdecode : decode w' = decode w := calc
    decode w' = decode (encode (decode w')) := (decodeInvertsEncode _ (decode_wf w')).symm
    _ = decode (encode (decode w)) := by rw [encode_decode, encode_decode, hbits, hused]
    _ = decode w := decodeInvertsEncode _ (decode_wf w)
  exact ⟨hdecode, fun s => by rw [Machine.execute, Machine.execute, hdecode]⟩

/-- Settles O48: the words are literals and the decoder runs on them. -/
theorem writtenOutWordsDecode : Obligations.WrittenOutWordsDecode := by
  unfold Obligations.WrittenOutWordsDecode
  decide

end Sys2Proof

/-! PROOF. Fetch, dispatch and the run (40_fetch_dispatch.md R110 to R116): what a step runs, that a halted machine rests, and
that a longer run continues a shorter one. -/

namespace Sys2Proof.Machine

/-- Settles O37: the two cases of the halt check, the fetched word being the cell at `pc`. -/
theorem stepRunsDecodedInstruction : Obligations.StepRunsDecodedInstruction :=
  fun _ => ⟨step_halted, step_running⟩

/-! ### The run, by what the first step answers -/

theorem runFor_halted {s : State} (h : s.halt = true) (k : Nat) : runFor k s = .halted s := by
  cases k <;> exact if_pos h

theorem runFor_zero_running {s : State} (h : s.halt = false) : runFor 0 s = .running s :=
  if_neg (Bool.eq_false_iff.1 h)

theorem runFor_succ_of_next {s t : State} (h : s.halt = false) (hstep : step s = .next t) (k : Nat) :
    runFor (k + 1) s = runFor k t := by
  simp [runFor, h, hstep]

theorem runFor_succ_of_fault {s : State} {f : Fault} (h : s.halt = false) (hstep : step s = .fault f) (k : Nat) :
    runFor (k + 1) s = .faulted f := by
  simp [runFor, h, hstep]

/-- The first step of a running machine leads to a state from which the run goes on, or faults; it is never refused. -/
theorem runFor_succ_cases {s : State} (h : s.halt = false) :
    (∃ t, ∀ k, runFor (k + 1) s = runFor k t) ∨ ∃ f, ∀ k, runFor (k + 1) s = .faulted f := by
  rcases exec_answers (decode s.fetchWord) s.advancePc with ⟨t, ht⟩ | ⟨cause, ir, hf⟩
  · exact .inl ⟨t, runFor_succ_of_next h ((step_running h).trans ht)⟩
  · exact .inr ⟨_, runFor_succ_of_fault h ((step_running h).trans hf)⟩

/-! ### A halted machine -/

theorem stepAccesses_halted {s : State} (h : s.halt = true) : stepAccesses s = [] :=
  if_pos h

/-- Halt is only raised, so raising it again changes nothing. -/
theorem State.raiseHalt_of_halted {s : State} (h : s.halt = true) : s.raiseHalt = s := by
  rw [State.raiseHalt, ← h]

theorem Move.eq_of_halted {s t : State} (m : Move s t) (h : s.halt = true) : t = s := by
  cases m with
  | core hstep =>
    rw [step_halted h] at hstep
    cases hstep
    rfl
  | hostHalt => exact State.raiseHalt_of_halted h

theorem Reaches.eq_of_halted {s t : State} (r : Reaches s t) (h : s.halt = true) : t = s := by
  induction r with
  | refl => rfl
  | tail _ m ih =>
    subst ih
    exact m.eq_of_halted h

/-- Settles O38: the halt check comes before the fetch, and neither kind of move changes a halted state. -/
theorem haltedRunNeverChanges : Obligations.HaltedRunNeverChanges :=
  fun _ h => ⟨fun _ => step_halted h, stepAccesses_halted h, runFor_halted h, fun _ r => r.eq_of_halted h⟩

/-! ### A longer run -/

/-- A run's status after `j` more steps are allowed (40_fetch_dispatch.md R116): only a run that has not ended goes on. -/
def RunStatus.resume (j : Nat) : RunStatus → RunStatus
  | .running s => runFor j s
  | .halted s => .halted s
  | .faulted f => .faulted f
  | .refused r => .refused r

theorem runFor_add (k j : Nat) (s : State) : runFor (k + j) s = (runFor k s).resume j := by
  induction k generalizing s with
  | zero =>
    cases h : s.halt with
    | true => rw [runFor_halted h, runFor_halted h, RunStatus.resume]
    | false => rw [runFor_zero_running h, Nat.zero_add, RunStatus.resume]
  | succ k ih =>
    rw [Nat.succ_add]
    cases h : s.halt with
    | true => rw [runFor_halted h, runFor_halted h, RunStatus.resume]
    | false =>
      rcases runFor_succ_cases h with ⟨t, ht⟩ | ⟨f, hf⟩
      · rw [ht, ht, ih]
      · rw [hf, hf, RunStatus.resume]

/-- The halt bit of a run's last state tells whether the run has halted. -/
theorem runFor_last_halt (k : Nat) (s : State) :
    (∀ t, runFor k s = .halted t → t.halt = true) ∧ ∀ t, runFor k s = .running t → t.halt = false := by
  induction k generalizing s with
  | zero =>
    cases h : s.halt with
    | true => simp [runFor_halted h, h]
    | false => simp [runFor_zero_running h, h]
  | succ k ih =>
    cases h : s.halt with
    | true => simp [runFor_halted h, h]
    | false =>
      rcases runFor_succ_cases h with ⟨t, ht⟩ | ⟨f, hf⟩
      · simpa only [ht] using ih t
      · simp [hf]

/-- Settles O46: the longer run is the shorter one resumed, and an ended run resumed is as it was. -/
theorem endedRunStaysEnded : Obligations.EndedRunStaysEnded := by
  intro k j s
  obtain ⟨hhalted, hrunning⟩ := runFor_last_halt k s
  rw [runFor_add]
  exact ⟨fun t h => ⟨hhalted t h, by rw [h, RunStatus.resume]⟩, fun f h => by rw [h, RunStatus.resume],
    fun t h => ⟨hrunning t h, by rw [h, RunStatus.resume]⟩⟩

end Sys2Proof.Machine

/-! PROOF. ADD, AND and NOT (41_alu.md R130 to R136): their words, unused bits at every value, and the word each leaves in its
destination. -/

namespace Sys2Proof

open BitVec

/-! ### Patterns with free unused bits (30_encoding.md R88) -/

theorem mask_usedBits (i : Instr) : usedBits i &&& (formRow i).mask = (formRow i).mask := by
  have hrows : ∀ r ∈ formRows, rowUsedBits r &&& r.mask = r.mask := by decide
  rw [usedBits_eq_rowUsedBits]
  exact hrows _ (formRow_mem_formRows i)

theorem formRow_matches_encode {i : Instr} (hwf : i.wf = true) : (formRow i).matches (encode i) = true := by
  have hrow : formRows.filter (fun r => r.matches (encode i)) = [formRow i] := by
    rw [everyWordMatchesOneRow, decodeInvertsEncode i hwf]
  have hmem : formRow i ∈ formRows.filter (fun r => r.matches (encode i)) := hrow ▸ List.mem_singleton_self _
  exact (List.mem_filter.1 hmem).2

/-- A word that agrees with an instruction's encoding on the used bits is that instruction: the row tests used bits only. -/
theorem decode_of_and_usedBits {i : Instr} {w : Word} (hwf : i.wf = true) (h : w &&& usedBits i = encode i) : decode w = i := by
  have hdecode : decode (encode i) = i := decodeInvertsEncode i hwf
  have hused : encode i &&& usedBits i = encode i := by rw [← h, BitVec.and_assoc, BitVec.and_self]
  have hmask : w &&& (formRow i).mask = encode i &&& (formRow i).mask := by
    rw [← h, BitVec.and_assoc, mask_usedBits]
  have hmatch : (formRow i).matches w = true := by
    rw [FormRow.matches, hmask]; exact formRow_matches_encode hwf
  obtain ⟨hsame, -⟩ := unusedBitsAreIgnored (encode i) w (by rwa [hdecode]) (by rw [hdecode, hused, h])
  rwa [hdecode] at hsame

/-- The mask is laid out as the word, so each field meets its own part of it. -/
theorem regForm_and_usedBits (op : BitVec 4) (a b c : BitVec 3) (f : BitVec 1) (u : BitVec 2) :
    (op ++ a ++ b ++ f ++ u ++ c : Word) &&& 0xFFE7#16 = op ++ a ++ b ++ f ++ 0#2 ++ c := by
  change _ &&& (allOnes 4 ++ allOnes 3 ++ allOnes 3 ++ allOnes 1 ++ 0#2 ++ allOnes 3) = _
  simp only [and_append, and_allOnes, and_zero]

theorem notForm_and_usedBits (op : BitVec 4) (a b : BitVec 3) (u : BitVec 6) :
    (op ++ a ++ b ++ u : Word) &&& 0xFFC0#16 = op ++ a ++ b ++ 0#6 := by
  change _ &&& (allOnes 4 ++ allOnes 3 ++ allOnes 3 ++ 0#6) = _
  simp only [and_append, and_allOnes, and_zero]

end Sys2Proof

namespace Sys2Proof.Machine

/-! ### What each form answers: the flag setters' common end, with the form's own word -/

theorem exec_addReg (dr sr1 sr2 : Reg) (s : State) :
    exec (.addReg dr sr1 sr2) s = .next (s.writeResult dr (s.gpr sr1 + s.gpr sr2)) := rfl

theorem exec_addImm (dr sr1 : Reg) (imm5 : BitVec 5) (s : State) :
    exec (.addImm dr sr1 imm5) s = .next (s.writeResult dr (s.gpr sr1 + sext imm5)) := rfl

theorem exec_andReg (dr sr1 sr2 : Reg) (s : State) :
    exec (.andReg dr sr1 sr2) s = .next (s.writeResult dr (s.gpr sr1 &&& s.gpr sr2)) := rfl

theorem exec_andImm (dr sr1 : Reg) (imm5 : BitVec 5) (s : State) :
    exec (.andImm dr sr1 imm5) s = .next (s.writeResult dr (s.gpr sr1 &&& sext imm5)) := rfl

theorem exec_not (dr sr : Reg) (s : State) : exec (.not dr sr) s = .next (s.writeResult dr (~~~ s.gpr sr)) := rfl

/-! ### The results -/

/-- Settles O1: the two unused bits are masked out before decoding; the sum of two words is the sum of their numbers modulo 65536. -/
theorem addRegisterSumsModulo65536 : Obligations.AddRegisterSumsModulo65536 :=
  ⟨fun _ _ _ u => decode_of_and_usedBits rfl (regForm_and_usedBits _ _ _ _ _ u), fun dr sr1 sr2 s =>
    ⟨_, _, exec_addReg dr sr1 sr2 s, BitVec.toNat_add _ _, s.writeResult_effect dr _⟩⟩

/-- Settles O2: a word plus a sign-extended field, by `toNat_add_sext`. -/
theorem addImmediateSumsModulo65536 : Obligations.AddImmediateSumsModulo65536 :=
  ⟨fun dr sr1 imm5 => decodeInvertsEncode (.addImm dr sr1 imm5) rfl, fun dr sr1 imm5 s =>
    ⟨_, _, exec_addImm dr sr1 imm5 s, toNat_add_sext _ _, s.writeResult_effect dr _⟩⟩

/-- Settles O3: the words as for O1; each bit of the AND of two words. -/
theorem andRegisterIsBitwise : Obligations.AndRegisterIsBitwise :=
  ⟨fun _ _ _ u => decode_of_and_usedBits rfl (regForm_and_usedBits _ _ _ _ _ u), fun dr sr1 sr2 s =>
    ⟨_, _, exec_andReg dr sr1 sr2 s, fun _ => BitVec.getLsbD_and, s.writeResult_effect dr _⟩⟩

/-- Settles O4: each bit of the AND, those of the mask by `getLsbD_sext`. -/
theorem andImmediateSignExtendsItsMask : Obligations.AndImmediateSignExtendsItsMask := by
  refine ⟨fun dr sr1 imm5 => decodeInvertsEncode (.andImm dr sr1 imm5) rfl, fun dr sr1 imm5 s =>
    ⟨_, _, exec_andImm dr sr1 imm5 s, fun k => ?_, s.writeResult_effect dr _⟩⟩
  rw [BitVec.getLsbD_and, getLsbD_sext imm5 k.isLt, State.readReg_gpr]

/-- Settles O5: each bit of the complement, and its number. -/
theorem notInvertsAllBits : Obligations.NotInvertsAllBits := by
  refine ⟨fun _ _ u => decode_of_and_usedBits rfl (notForm_and_usedBits _ _ _ u), fun dr sr s =>
    ⟨_, _, exec_not dr sr s, fun k => ?_, BitVec.toNat_not, s.writeResult_effect dr _⟩⟩
  rw [BitVec.getLsbD_not, decide_eq_true k.isLt, Bool.true_and, State.readReg_gpr]

theorem toInt_sext {n : Nat} (v : BitVec n) (hn : n ≤ 16) : (sext v).toInt = v.toInt :=
  BitVec.toInt_signExtend_of_le hn

/-- Settles O6: one sum of words, read as natural numbers and as integers; sign extension keeps the immediate's value. -/
theorem addAgreesUnsignedAndSigned : Obligations.AddAgreesUnsignedAndSigned := by
  refine ⟨fun dr sr1 sr2 s => ⟨_, exec_addReg dr sr1 sr2 s, ?_, ?_⟩, fun dr sr1 imm5 s => ⟨_, exec_addImm dr sr1 imm5 s, ?_⟩⟩
  · rw [State.readReg_gpr, State.writeResult_gpr_same]
    exact BitVec.toNat_add _ _
  · rw [State.readReg_gpr, State.writeResult_gpr_same]
    exact BitVec.toInt_add _ _
  · rw [State.readReg_gpr, State.writeResult_gpr_same, ← toInt_sext imm5 (by decide)]
    exact BitVec.toInt_add _ _

/-- Settles O7: the complement plus 1 is the two's-complement negation, and complementing twice is the identity. -/
theorem notThenAddOneNegates : Obligations.NotThenAddOneNegates := by
  intro r s
  refine ⟨_, _, _, exec_not r r s, exec_addImm r r 1#5 _, exec_not r r _, ?_, ?_⟩
  · have hone : sext 1#5 = 1#16 := by decide
    rw [State.readReg_gpr, State.writeResult_gpr_same, State.writeResult_gpr_same, hone, ← BitVec.neg_eq_not_add]
    exact BitVec.toNat_neg _
  · rw [State.readReg_gpr, State.writeResult_gpr_same, State.writeResult_gpr_same, BitVec.not_not, State.readReg_gpr]

end Sys2Proof.Machine

/-! PROOF. LD, LDI, LDR, LEA, ST, STI and STR (42_load_store.md R150 to R157): their words, the addresses they form, and each
one's whole effect, which for a load and LEA is that of the flag setters' end and for a store that of its one write. -/

namespace Sys2Proof.Machine

/-! ### What each form answers -/

theorem exec_ld (dr : Reg) (offset9 : BitVec 9) (s : State) :
    exec (.ld dr offset9) s = .next (s.writeResult dr (s.memRead (pcAddr9 s offset9))) := rfl

theorem exec_ldi (dr : Reg) (offset9 : BitVec 9) (s : State) :
    exec (.ldi dr offset9) s = .next (s.writeResult dr (s.memRead (indirectAddr s offset9))) := rfl

theorem exec_ldr (dr baseReg : Reg) (offset6 : BitVec 6) (s : State) :
    exec (.ldr dr baseReg offset6) s = .next (s.writeResult dr (s.memRead (baseAddr s baseReg offset6))) := rfl

theorem exec_lea (dr : Reg) (offset9 : BitVec 9) (s : State) :
    exec (.lea dr offset9) s = .next (s.writeResult dr (pcAddr9 s offset9)) := rfl

theorem exec_st (sr : Reg) (offset9 : BitVec 9) (s : State) :
    exec (.st sr offset9) s = .next (s.memWrite (pcAddr9 s offset9) (s.gpr sr)) := rfl

theorem exec_sti (sr : Reg) (offset9 : BitVec 9) (s : State) :
    exec (.sti sr offset9) s = .next (s.memWrite (indirectAddr s offset9) (s.gpr sr)) := rfl

theorem exec_str (sr baseReg : Reg) (offset6 : BitVec 6) (s : State) :
    exec (.str sr baseReg offset6) s = .next (s.memWrite (baseAddr s baseReg offset6) (s.gpr sr)) := rfl

/-! ### The addresses formed, as numbers (42_load_store.md R157) -/

theorem toNat_pcAddr9 (s : State) (offset9 : BitVec 9) : (pcAddr9 s offset9).toNat = wrapSum s.pc offset9.toInt :=
  toNat_add_sext s.pc offset9

theorem toNat_baseAddr (s : State) (baseReg : Reg) (offset6 : BitVec 6) :
    (baseAddr s baseReg offset6).toNat = wrapSum (s.readReg (.gpr baseReg)) offset6.toInt :=
  toNat_add_sext (s.gpr baseReg) offset6

/-! ### The loads and LEA -/

/-- Settles O8: the cell loaded is the one at `pcAddr9`. -/
theorem loadReadsPcRelativeCell : Obligations.LoadReadsPcRelativeCell :=
  ⟨fun dr offset9 => decodeInvertsEncode (.ld dr offset9) rfl, fun dr offset9 s =>
    ⟨_, pcAddr9 s offset9, exec_ld dr offset9 s, toNat_pcAddr9 s offset9, s.writeResult_effect dr _⟩⟩

/-- Settles O9: the pointer's cell is the one at `pcAddr9`, and `indirectAddr` is what it holds. -/
theorem loadIndirectReadsThroughPointer : Obligations.LoadIndirectReadsThroughPointer :=
  ⟨fun dr offset9 => decodeInvertsEncode (.ldi dr offset9) rfl, fun dr offset9 s =>
    ⟨_, pcAddr9 s offset9, exec_ldi dr offset9 s, toNat_pcAddr9 s offset9, s.writeResult_effect dr _⟩⟩

/-- Settles O10: the address is formed before the destination is written, so the two registers may be one. -/
theorem loadRegisterReadsBasePlusOffset : Obligations.LoadRegisterReadsBasePlusOffset :=
  ⟨fun dr baseReg offset6 => decodeInvertsEncode (.ldr dr baseReg offset6) rfl, fun dr baseReg offset6 s =>
    ⟨_, baseAddr s baseReg offset6, exec_ldr dr baseReg offset6 s, toNat_baseAddr s baseReg offset6,
      s.writeResult_effect dr _⟩⟩

/-- Settles O11: the address is itself the result, and the access list of LEA is empty. -/
theorem loadEffectiveAddressSetsFlags : Obligations.LoadEffectiveAddressSetsFlags :=
  ⟨fun dr offset9 => decodeInvertsEncode (.lea dr offset9) rfl, fun dr offset9 s =>
    ⟨_, pcAddr9 s offset9, exec_lea dr offset9 s, toNat_pcAddr9 s offset9, rfl, s.writeResult_effect dr _⟩⟩

/-! ### The stores -/

/-- Settles O12: the one write is at `pcAddr9`. -/
theorem storeWritesPcRelativeCell : Obligations.StoreWritesPcRelativeCell :=
  ⟨fun sr offset9 => decodeInvertsEncode (.st sr offset9) rfl, fun sr offset9 s =>
    ⟨_, exec_st sr offset9 s, toNat_pcAddr9 s offset9, s.memWrite_effect _ _⟩⟩

/-- Settles O13: the pointer is read from the state before the write, so the write may fall on its own cell. -/
theorem storeIndirectWritesThroughPointer : Obligations.StoreIndirectWritesThroughPointer :=
  ⟨fun sr offset9 => decodeInvertsEncode (.sti sr offset9) rfl, fun sr offset9 s =>
    ⟨_, pcAddr9 s offset9, exec_sti sr offset9 s, toNat_pcAddr9 s offset9, rfl, s.memWrite_effect _ _⟩⟩

/-- Settles O14: the one write is at `baseAddr`, the word written being the source's old value. -/
theorem storeRegisterWritesBasePlusOffset : Obligations.StoreRegisterWritesBasePlusOffset :=
  ⟨fun sr baseReg offset6 => decodeInvertsEncode (.str sr baseReg offset6) rfl, fun sr baseReg offset6 s =>
    ⟨_, exec_str sr baseReg offset6 s, toNat_baseAddr s baseReg offset6, s.memWrite_effect _ _⟩⟩

end Sys2Proof.Machine

/-! PROOF. BR, JMP and both forms of JSR (43_control.md R170 to R176): their words, BR's test bit by bit, and each one's whole
effect, which is a jump or, for JSR, a link and a jump. -/

namespace Sys2Proof

open BitVec

/-! ### Patterns with free unused bits (30_encoding.md R88) -/

theorem jmpForm_and_usedBits (op : BitVec 4) (u a : BitVec 3) (u' : BitVec 6) :
    (op ++ u ++ a ++ u' : Word) &&& 0xF1C0#16 = op ++ 0#3 ++ a ++ 0#6 := by
  change _ &&& (allOnes 4 ++ 0#3 ++ allOnes 3 ++ 0#6) = _
  simp only [and_append, and_allOnes, and_zero]

theorem jsrrForm_and_usedBits (op : BitVec 4) (f : BitVec 1) (rr : BitVec 2) (u : BitVec 9) :
    (op ++ f ++ rr ++ u : Word) &&& 0xFE00#16 = op ++ f ++ rr ++ 0#9 := by
  change _ &&& (allOnes 4 ++ allOnes 1 ++ allOnes 2 ++ 0#9) = _
  simp only [and_append, and_allOnes, and_zero]

/-- A two-bit field widened by a zero bit names one of R0 to R3 (30_encoding.md R83). -/
theorem Reg.lowFour_ofBits_zero_append (rr : BitVec 2) : (Reg.ofBits (0#1 ++ rr)).lowFour = true := by
  revert rr; decide

theorem encode_jsrr_ofBits (rr : BitVec 2) :
    encode (.jsrr (Reg.ofBits (0#1 ++ rr))) = Opcode.JSR.toBits ++ 0#1 ++ rr ++ 0#9 := by
  rw [encode, Reg.toBits_ofBits, extractLsb'_append_eq_right]

end Sys2Proof

namespace Sys2Proof.Machine

/-! ### What each form answers -/

theorem exec_br (condMask : BitVec 3) (offset9 : BitVec 9) (s : State) :
    exec (.br condMask offset9) s = .next (if brTaken condMask s.cond then s.setPc (pcAddr9 s offset9) else s) := rfl

theorem exec_jmp (baseReg : Reg) (s : State) : exec (.jmp baseReg) s = .next (s.setPc (s.gpr baseReg)) := rfl

theorem exec_jsr (offset11 : BitVec 11) (s : State) :
    exec (.jsr offset11) s = .next (s.link.setPc (pcAddr11 s offset11)) := rfl

theorem exec_jsrr (baseReg : Reg) (s : State) : exec (.jsrr baseReg) s = .next (s.link.setPc (s.link.gpr baseReg)) := rfl

/-! ### BR's test (43_control.md R170, R171) -/

/-- The widened mask is zero above bit 2, so bits 15:3 of COND take no part. -/
theorem brTaken_append (condMask : BitVec 3) (high : BitVec 13) (low : BitVec 3) :
    brTaken condMask (high ++ low) = (condMask &&& low != 0#3) := by
  have hmask : condMask.zeroExtend 16 = 0#13 ++ condMask := BitVec.setWidth_eq_append (by decide)
  have hzero : ∀ v : BitVec 3, (0#13 ++ v != 0x0000#16) = (v != 0#3) := by decide
  rw [brTaken, hmask, BitVec.and_append, BitVec.zero_and]
  exact hzero _

theorem brTaken_eq_bits (condMask : BitVec 3) (cond : Word) :
    brTaken condMask cond = ((condMask.getLsbD 2 && cond.getLsbD 2) || (condMask.getLsbD 1 && cond.getLsbD 1) ||
      (condMask.getLsbD 0 && cond.getLsbD 0)) := by
  have hsplit : cond.extractLsb' 3 13 ++ cond.extractLsb' 0 3 = cond := BitVec.extractLsb'_append_extractLsb'
  have hlow : ∀ m low : BitVec 3, (m &&& low != 0#3) =
      ((m.getLsbD 2 && low.getLsbD 2) || (m.getLsbD 1 && low.getLsbD 1) || (m.getLsbD 0 && low.getLsbD 0)) := by decide
  rw [← hsplit, brTaken_append, hlow, hsplit]
  simp

theorem brTaken_cond_zero (condMask : BitVec 3) : brTaken condMask 0x0000#16 = false := by
  simp [brTaken]

theorem brTaken_mask_zero (cond : Word) : brTaken 0#3 cond = false := by
  simp [brTaken]

/-- Mask 111 holds a bit for each of the three codes. -/
theorem brTaken_seven_condOf (v : Word) : brTaken 7#3 (condOf v) = true := by
  rcases condOf_matches v with ⟨-, h⟩ | ⟨-, h⟩ | ⟨-, h⟩ <;> rw [h] <;> decide

theorem exec_br_taken {m : BitVec 3} {s : State} (o : BitVec 9) (h : brTaken m s.cond = true) :
    exec (.br m o) s = .next (s.setPc (pcAddr9 s o)) := by
  rw [exec_br, if_pos h]

/-- At offset 0 the target is `pc` itself, so a taken BR changes nothing either. -/
theorem exec_br_offset_zero (m : BitVec 3) (s : State) : exec (.br m 0#9) s = .next s := by
  have htarget : pcAddr9 s 0#9 = s.pc := BitVec.add_zero s.pc
  have hjump : s.setPc (pcAddr9 s 0#9) = s := by rw [htarget]; rfl
  rw [exec_br, hjump, ite_self]

/-! ### The branch -/

/-- Settles O15: the test by `brTaken_eq_bits`, and `pc` in each of its two cases. -/
theorem branchTestsMaskedConditionBits : Obligations.BranchTestsMaskedConditionBits := by
  refine ⟨fun condMask offset9 => decodeInvertsEncode (.br condMask offset9) rfl, fun condMask offset9 s => ?_⟩
  simp only [← brTaken_eq_bits]
  refine ⟨_, exec_br condMask offset9 s, ?_, execBr_onlyRegsChange (exec_br condMask offset9 s)⟩
  split
  · exact toNat_pcAddr9 s offset9
  · rfl

/-- Settles O16: the test fails at COND 0 and at mask 0, reads only COND's low bits, and holds for mask 111 on a code. -/
theorem branchCornerCases : Obligations.BranchCornerCases := by
  refine ⟨fun condMask offset9 s => exec_br_not_taken offset9 (brTaken_cond_zero condMask),
    fun offset9 s => exec_br_not_taken offset9 (brTaken_mask_zero s.cond), exec_br_offset_zero,
    fun condMask offset9 s high low => ⟨_, _, exec_br .., exec_br .., ?_⟩,
    fun offset9 s v => ⟨_, exec_br_taken offset9 (brTaken_seven_condOf v), toNat_pcAddr9 s offset9⟩⟩
  rw [State.setCond_cond, State.setCond_cond, brTaken_append, brTaken_append]
  split <;> rfl

/-! ### The jump and the calls -/

/-- Settles O17: the unused bits are masked out before decoding; the jump is one write of `pc`. -/
theorem jumpGoesToBaseRegister : Obligations.JumpGoesToBaseRegister :=
  ⟨fun u _ u' => decode_of_and_usedBits rfl (jmpForm_and_usedBits _ u _ u'), fun baseReg s =>
    ⟨_, exec_jmp baseReg s, rfl, s.writeReg_onlyRegsChange .PC _⟩⟩

theorem toNat_pcAddr11 (s : State) (offset11 : BitVec 11) : (pcAddr11 s offset11).toNat = wrapSum s.pc offset11.toInt :=
  toNat_add_sext s.pc offset11

/-- Settles O18: the link and the target's base are the one `pc` of the state before. -/
theorem jsrLinksAndJumpsPcRelative : Obligations.JsrLinksAndJumpsPcRelative :=
  ⟨fun offset11 => decodeInvertsEncode (.jsr offset11) rfl, fun offset11 s =>
    ⟨_, exec_jsr offset11 s, s.link_gpr_R7, toNat_pcAddr11 s offset11, s.link_setPc_onlyRegsChange _⟩⟩

/-- Settles O19: the base is not R7, so the link leaves it as it was. -/
theorem jsrrLinksAndJumpsToRegister : Obligations.JsrrLinksAndJumpsToRegister := by
  refine ⟨fun rr u => decode_of_and_usedBits (Reg.lowFour_ofBits_zero_append rr) ?_, fun baseReg s hlow => ?_⟩
  · rw [encode_jsrr_ofBits]
    exact jsrrForm_and_usedBits _ _ rr u
  · have hbase : s.link.gpr baseReg = s.gpr baseReg := by
      rw [State.link_gpr, if_neg (by rintro rfl; cases hlow)]
    exact ⟨_, exec_jsrr baseReg s, s.link_gpr_R7, hbase, hbase, s.link_setPc_onlyRegsChange _⟩

/-- Wherever a linking jump goes, the return through R7 leads back (43_control.md R176). -/
theorem exec_jmp_R7_after_link (s : State) (target : Word) :
    exec (.jmp .R7) (s.link.setPc target) = .next ((s.link.setPc target).setPc s.pc) := by
  rw [exec_jmp, State.gpr_setPc, State.link_gpr_R7]

/-- Settles O20: both forms are linking jumps. -/
theorem subroutineCallReturns : Obligations.SubroutineCallReturns :=
  ⟨fun offset11 s => ⟨_, _, exec_jsr offset11 s, exec_jmp_R7_after_link s _, State.setPc_pc _ _⟩,
    fun baseReg s => ⟨_, _, exec_jsrr baseReg s, exec_jmp_R7_after_link s _, State.setPc_pc _ _⟩⟩

end Sys2Proof.Machine

/-! PROOF. TRAP, RTI and RES (44_system.md R190 to R193): their words, what each answers, and that the environment's writes
lead to every state whose halt signal is not lowered. -/

namespace Sys2Proof

open BitVec

theorem trapForm_and_usedBits (op u : BitVec 4) (vec : BitVec 8) :
    (op ++ u ++ vec : Word) &&& 0xF0FF#16 = op ++ 0#4 ++ vec := by
  change _ &&& (allOnes 4 ++ 0#4 ++ allOnes 8) = _
  simp only [and_append, and_allOnes, and_zero]

end Sys2Proof

namespace Sys2Proof.Machine

/-! ### What each form answers -/

theorem exec_trap (vec : BitVec 8) (s : State) : exec (.trap vec) s = .next (s.trapCall vec) := rfl

theorem exec_rti (u : BitVec 12) (s : State) :
    exec (.rti u) s = .fault (.unimplementedInstruction .RTI (encode (.rti u)) (s.pc - 1#16) s) := rfl

theorem exec_res (u : BitVec 12) (s : State) :
    exec (.res u) s = .fault (.unimplementedInstruction .RES (encode (.res u)) (s.pc - 1#16) s) := rfl

/-! ### The states the environment's writes lead to -/

/-- Some list of the environment's writes leads from `s` to `t`. -/
def State.EnvMakes (s t : State) : Prop := ∃ l : List EnvAccess, s.envAccesses l = t

theorem State.EnvMakes.refl (s : State) : s.EnvMakes s := ⟨[], rfl⟩

theorem State.EnvMakes.trans {s t u : State} (h : s.EnvMakes t) (h' : t.EnvMakes u) : s.EnvMakes u := by
  obtain ⟨l, rfl⟩ := h
  obtain ⟨l', rfl⟩ := h'
  exact ⟨l ++ l', s.envAccesses_append l l'⟩

theorem State.envMakes_envAccess (s : State) (a : EnvAccess) : s.EnvMakes (s.envAccess a) := ⟨[a], rfl⟩

theorem State.EnvMakes.canonical {s t : State} (h : s.EnvMakes t) (hs : s.mem.wf = true) : t.mem.wf = true := by
  obtain ⟨l, rfl⟩ := h
  exact State.envAccesses_canonical hs l

/-- One write to each of the eight general registers. -/
theorem State.envMakes_x (s : State) (x : Gprs) : s.EnvMakes { s with x := x } := by
  refine ⟨[.writeReg (.gpr .R0) x.r0, .writeReg (.gpr .R1) x.r1, .writeReg (.gpr .R2) x.r2, .writeReg (.gpr .R3) x.r3,
    .writeReg (.gpr .R4) x.r4, .writeReg (.gpr .R5) x.r5, .writeReg (.gpr .R6) x.r6, .writeReg (.gpr .R7) x.r7], ?_⟩
  simp only [State.envAccesses, State.envAccess, State.writeReg, State.setGpr, Gprs.set]

/-- The general registers, then `pc` and COND. -/
theorem State.envMakes_regs (s : State) (x : Gprs) (pc cond : Word) :
    s.EnvMakes { s with x := x, pc := pc, cond := cond } :=
  ((s.envMakes_x x).trans (State.envMakes_envAccess _ (.writeReg .PC pc))).trans
    (State.envMakes_envAccess _ (.writeReg .COND cond))

/-- One write to each cell below `n`, in the order of the addresses. -/
theorem State.envMakes_cellsBelow (s : State) (m : Memory) {n : Nat} (hn : n ≤ memSize) :
    ∃ m' : Memory, s.EnvMakes { s with mem := m' } ∧ ∀ a < n, m'.read a = m.read a := by
  induction n with
  | zero => exact ⟨s.mem, .refl s, nofun⟩
  | succ n ih =>
    obtain ⟨m', hmakes, hread⟩ := ih (Nat.le_of_succ_le hn)
    refine ⟨m'.write n (m.read n),
      hmakes.trans (State.envMakes_envAccess _ (.writeMem (BitVec.ofNatLT n hn) (m.read n))), fun a ha => ?_⟩
    rcases Nat.lt_succ_iff_lt_or_eq.1 ha with hlt | rfl
    · rw [Memory.read_write_other (Nat.ne_of_lt hlt), hread a hlt]
    · exact Memory.read_write_same m' a _

/-- Writing every cell makes any canonical memory itself, since canonical memories that read alike are equal. -/
theorem State.envMakes_mem {s : State} {m : Memory} (hs : s.mem.wf = true) (hm : m.wf = true) :
    s.EnvMakes { s with mem := m } := by
  obtain ⟨m', hmakes, hread⟩ := s.envMakes_cellsBelow m (Nat.le_refl memSize)
  obtain rfl : m' = m := Memory.wfFrom_ext (hmakes.canonical hs) hm hread
  exact hmakes

/-- The halt signal can be left as it is, or raised. -/
theorem State.envMakes_halt {s : State} {b : Bool} (h : s.halt = true → b = true) : s.EnvMakes { s with halt := b } := by
  cases b with
  | true => exact s.envMakes_envAccess .raiseHalt
  | false =>
    have hhalt : s.halt = false := by simpa using h
    exact ⟨[], by rw [← hhalt]; rfl⟩

/-- Settles O24: the registers, the memory and halt are made one after the other. -/
theorem environmentCanMakeAnyState : Obligations.EnvironmentCanMakeAnyState := by
  intro s t hs ht hhalt hcalls
  have hregs := s.envMakes_regs t.x t.pc t.cond
  have hall : s.EnvMakes { t with trapCalls := s.trapCalls } :=
    (hregs.trans (State.envMakes_mem (hregs.canonical hs) ht)).trans (State.envMakes_halt hhalt)
  rwa [← hcalls] at hall

/-! ### The obligations on TRAP, RTI and RES -/

/-- Settles O22: the unused bits are masked out before decoding, and `trapCall` is the callback's writes alone. -/
theorem trapRoutesVectorToCallback : Obligations.TrapRoutesVectorToCallback :=
  ⟨fun u vec => decode_of_and_usedBits rfl (trapForm_and_usedBits _ u vec), fun vec s => ⟨_, exec_trap vec s, rfl⟩,
    fun s => s.setPc_pc _⟩

/-- Settles O25: each word is its instruction's encoding, and the fault reports that encoding. -/
theorem rtiAndResAlwaysFault : Obligations.RtiAndResAlwaysFault :=
  ⟨fun u => decodeInvertsEncode (.rti u) rfl, fun u => decodeInvertsEncode (.res u) rfl, exec_rti, exec_res⟩

end Sys2Proof.Machine

/-! PROOF. Faults and what the environment writes (60_exceptions.md R200, R201, R204, R216): the inversion of a step's fault,
and the effect of a list of the environment's writes. -/

namespace Sys2Proof

theorem decode_opcode (w : Word) : (decode w).opcode = opcodeField w := by
  cases h : opcodeField w with
  | ADD | AND | JSR => simp only [decode, h]; split <;> rfl
  | _ => simp only [decode, h, Instr.opcode]

/-- The opcode is the word's bits 15:12 (30_encoding.md R81), here as a quotient. -/
theorem opcodeField_toNat (w : Word) : (opcodeField w).toBits.toNat = w.toNat / 4096 := by
  rw [opcodeField, Opcode.toBits_ofBits, BitVec.extractLsb'_toNat, Nat.shiftRight_eq_div_pow]
  exact Nat.mod_eq_of_lt (Nat.div_lt_of_lt_mul w.isLt)

theorem opcodeField_eq_iff {w : Word} {o : Opcode} : opcodeField w = o ↔ w.toNat / 4096 = o.toBits.toNat := by
  constructor
  · rintro rfl
    exact (opcodeField_toNat w).symm
  · intro h
    have hbits : (opcodeField w).toBits = o.toBits := BitVec.eq_of_toNat_eq ((opcodeField_toNat w).trans h)
    rw [← Opcode.ofBits_toBits (opcodeField w), hbits, Opcode.ofBits_toBits]

end Sys2Proof

namespace Sys2Proof.Machine

/-! ### The fault of an instruction and of a step -/

/-- The opcode that raises a fault of the given cause (60_exceptions.md R201). -/
def FaultCause.opcode : FaultCause → Opcode
  | .RTI => .RTI
  | .RES => .RES

theorem exec_fault_iff {i : Instr} {s : State} {f : Fault} :
    exec i s = .fault f ↔
      ∃ cause : FaultCause, i.opcode = cause.opcode ∧ .unimplementedInstruction cause (encode i) (s.pc - 1#16) s = f := by
  constructor
  · intro h
    cases i with
    | rti u => exact ⟨.RTI, rfl, Host.Outcome.fault.inj h⟩
    | res u => exact ⟨.RES, rfl, Host.Outcome.fault.inj h⟩
    | _ => cases h
  · rintro ⟨cause, hop, rfl⟩
    cases i with
    | rti u => cases cause <;> cases hop; exact exec_rti u s
    | res u => cases cause <;> cases hop; exact exec_res u s
    | _ => cases cause <;> cases hop

/-- Every bit of an RTI or RES word is a used bit, so the report's word is the word fetched. -/
theorem encode_decode_of_faulting {w : Word} {cause : FaultCause} (h : opcodeField w = cause.opcode) :
    encode (decode w) = w := by
  have hused : usedBits (decode w) = BitVec.allOnes 16 := by cases cause <;> simp only [decode, h] <;> rfl
  rw [encode_decode, hused, BitVec.and_allOnes]

/-- The report of a step's fault: the increment before the handler makes its `pc - 1` the word's own address. -/
def State.faultReport (s : State) (cause : FaultCause) : Fault :=
  .unimplementedInstruction cause s.fetchWord s.pc s.advancePc

theorem step_fault_iff {s : State} {f : Fault} :
    step s = .fault f ↔
      s.halt = false ∧ ∃ cause : FaultCause, opcodeField s.fetchWord = cause.opcode ∧ s.faultReport cause = f := by
  cases hhalt : s.halt with
  | true => simp [step_halted hhalt]
  | false =>
    have haddr : s.advancePc.pc - 1#16 = s.pc := BitVec.add_sub_cancel s.pc 1#16
    rw [step_running hhalt, exec_fault_iff, decode_opcode, haddr]
    simp only [true_and]
    refine exists_congr fun cause => and_congr_right fun hop => ?_
    rw [encode_decode_of_faulting hop, State.faultReport]

theorem step_ne_refused (s : State) (r : Refusal) : step s ≠ .refused r := by
  cases hhalt : s.halt with
  | true => simp [step_halted hhalt]
  | false =>
    rw [step_running hhalt]
    rcases exec_answers (decode s.fetchWord) s.advancePc with ⟨t, ht⟩ | ⟨cause, ir, hf⟩
    · simp [ht]
    · simp [hf]

theorem exists_faultCause_opcode_iff {w : Word} :
    (∃ cause : FaultCause, opcodeField w = cause.opcode) ↔ w.toNat / 4096 = 8 ∨ w.toNat / 4096 = 13 := by
  constructor
  · rintro ⟨_ | _, hop⟩
    · exact .inl (opcodeField_eq_iff.1 hop)
    · exact .inr (opcodeField_eq_iff.1 hop)
  · rintro (h | h)
    · exact ⟨.RTI, opcodeField_eq_iff.2 h⟩
    · exact ⟨.RES, opcodeField_eq_iff.2 h⟩

/-- Settles O26: the inversion of a step's fault, with the two faulting opcodes as bits 15:12 of the fetched word. -/
theorem onlyRtiAndResFault : Obligations.OnlyRtiAndResFault := by
  refine fun s => ⟨?_, step_ne_refused s⟩
  calc (∃ f, step s = .fault f)
    _ ↔ s.halt = false ∧ ∃ cause : FaultCause, opcodeField s.fetchWord = cause.opcode := by simp [step_fault_iff]
    _ ↔ _ := and_congr_right fun _ => exists_faultCause_opcode_iff

/-- Settles O27: the report's fields, read off the inversion of a step's fault. -/
theorem faultReportsWordAndAddress : Obligations.FaultReportsWordAndAddress := by
  intro s cause ir addr at' h
  obtain ⟨-, cause, hop, hreport⟩ := step_fault_iff.1 h
  cases hreport
  have hcause : cause = .RTI ↔ opcodeField s.fetchWord = .RTI := by rw [hop]; cases cause <;> decide
  exact ⟨hcause.trans opcodeField_eq_iff, rfl, rfl, rfl, rfl⟩

/-! ### What a list of the environment's writes does -/

theorem State.envAccess_readReg_other {r : RegId} {a : EnvAccess} (h : ∀ v, a ≠ .writeReg r v) (s : State) :
    (s.envAccess a).readReg r = s.readReg r := by
  cases a with
  | writeReg q v => exact State.readReg_writeReg_other (fun e => h v (by rw [e])) s v
  | writeMem a v => exact State.readReg_memWrite s a v r
  | raiseHalt => exact State.readReg_raiseHalt s r

theorem State.envAccess_memRead_other {b : Word} {a : EnvAccess} (h : ∀ v, a ≠ .writeMem b v) (s : State) :
    (s.envAccess a).memRead b = s.memRead b := by
  cases a with
  | writeReg r v => exact congrArg (Memory.read · b.toNat) (State.mem_writeReg s r v)
  | writeMem c v => exact State.memRead_memWrite_other (fun e => h v (by rw [e])) s v
  | raiseHalt => rfl

/-- Whatever each write of a list leaves alone, the list leaves alone. -/
theorem State.envAccesses_frame {α : Type} (f : State → α) {l : List EnvAccess}
    (h : ∀ a ∈ l, ∀ s : State, f (s.envAccess a) = f s) (s : State) : f (s.envAccesses l) = f s := by
  induction l generalizing s with
  | nil => rfl
  | cons a rest ih =>
    calc f (s.envAccesses (a :: rest))
      _ = f (s.envAccess a) := ih (fun b hb => h b (List.mem_cons_of_mem a hb)) _
      _ = f s := h a List.mem_cons_self s

theorem State.envAccesses_readReg_other {r : RegId} {l : List EnvAccess} (h : ∀ v, EnvAccess.writeReg r v ∉ l) (s : State) :
    (s.envAccesses l).readReg r = s.readReg r :=
  State.envAccesses_frame (·.readReg r) (fun _ ha => State.envAccess_readReg_other fun v e => h v (e ▸ ha)) s

theorem State.envAccesses_memRead_other {b : Word} {l : List EnvAccess} (h : ∀ v, EnvAccess.writeMem b v ∉ l) (s : State) :
    (s.envAccesses l).memRead b = s.memRead b :=
  State.envAccesses_frame (·.memRead b) (fun _ ha => State.envAccess_memRead_other fun v e => h v (e ▸ ha)) s

theorem State.envAccesses_trapCalls (s : State) (l : List EnvAccess) : (s.envAccesses l).trapCalls = s.trapCalls :=
  State.envAccesses_frame (·.trapCalls) (fun a _ s => s.envAccess_trapCalls a) s

theorem State.envAccess_halt_eq (s : State) (a : EnvAccess) :
    (s.envAccess a).halt = (s.halt || decide (EnvAccess.raiseHalt = a)) := by
  cases a with
  | writeReg r v => simp [State.envAccess]
  | writeMem a v => simp [State.envAccess]
  | raiseHalt => simp [State.envAccess]

theorem State.envAccesses_halt_eq (s : State) (l : List EnvAccess) :
    (s.envAccesses l).halt = (s.halt || decide (EnvAccess.raiseHalt ∈ l)) := by
  induction l generalizing s with
  | nil => simp [State.envAccesses]
  | cons a rest ih =>
    rw [State.envAccesses_cons, ih, State.envAccess_halt_eq]
    simp only [List.mem_cons, Bool.decide_or, Bool.or_assoc]

/-- A list of writes cut at one of them. -/
theorem State.envAccesses_at (s : State) (l : List EnvAccess) (a : EnvAccess) (l' : List EnvAccess) :
    s.envAccesses (l ++ [a] ++ l') = ((s.envAccesses l).envAccess a).envAccesses l' := by
  rw [State.envAccesses_append, State.envAccesses_append]
  rfl

/-- Settles O23: the frame of the whole list gives the unnamed places, the frame of what follows a write gives the last one. -/
theorem environmentWritesActInOrder : Obligations.EnvironmentWritesActInOrder := by
  refine fun s l => ⟨fun r h => State.envAccesses_readReg_other h s, fun a h => State.envAccesses_memRead_other h s,
    fun r v l' h => ?_, fun a v l' h => ?_, s.envAccesses_halt_eq l, s.envAccesses_trapCalls l⟩
  · rw [State.envAccesses_at, State.envAccesses_readReg_other h]
    exact State.readReg_writeReg_same _ r v
  · rw [State.envAccesses_at, State.envAccesses_memRead_other h]
    exact State.memRead_memWrite_same _ a v

end Sys2Proof.Machine

/-! PROOF. The start of a run and the PC-relative hazard (70_reset_and_hazards.md R230 to R236): what the loader sets, what a
one-word load runs, and that an offset counts from the next instruction's address. -/

namespace Sys2Proof.Machine

/-! ### The loader -/

theorem Memory.read_ofFn (f : Word → Word) (a : Word) : (Memory.ofFn f).read a.toNat = f a := by
  rw [Memory.ofFn, Memory.read_tabulate f memSize 0 a.toNat (Nat.zero_le _) (by simpa [memSize] using a.isLt),
    BitVec.ofNat_toNat, BitVec.setWidth_eq]

/-- The loader leaves every register but `pc` as creation made it. -/
theorem State.loaded_readReg_other {r : RegId} (h : r ≠ .PC) (entryPc : Word) (initMem : Word → Word) :
    (State.loaded entryPc initMem).readReg r = State.reset.readReg r := by
  cases r with
  | gpr i => rfl
  | PC => exact absurd rfl h
  | COND => rfl

/-- Settles O41: the image read back cell by cell, the registers those of reset, and the canonical form of a tabulated memory. -/
theorem loaderSetsPcAndMemoryOnly : Obligations.LoaderSetsPcAndMemoryOnly :=
  ⟨State.reset_readReg, rfl, fun entryPc initMem =>
    ⟨rfl, Memory.read_ofFn initMem, fun r hr => (State.loaded_readReg_other hr entryPc initMem).trans (State.reset_readReg r),
      rfl, Memory.wf_ofFn initMem⟩⟩

/-! ### The one-word load -/

/-- A 16-bit word is stored whole. -/
theorem State.withFetchWord_word (s : State) (w : Word) :
    s.withFetchWord 16 w.toNat = { s.memWrite s.pc w with halt := false } := by
  rw [State.withFetchWord, Nat.mod_eq_of_lt w.isLt, BitVec.ofNat_toNat, BitVec.setWidth_eq]

theorem State.withFetchWord_memRead (s : State) (w a : Word) :
    (s.withFetchWord 16 w.toNat).memRead a = (s.memWrite s.pc w).memRead a := by
  rw [State.withFetchWord_word]
  rfl

theorem State.withFetchWord_readReg (s : State) (w : Word) (r : RegId) :
    (s.withFetchWord 16 w.toNat).readReg r = s.readReg r := by
  cases r <;> rfl

theorem State.withFetchWord_fetchWord (s : State) (w : Word) : (s.withFetchWord 16 w.toNat).fetchWord = w :=
  (s.withFetchWord_memRead w s.pc).trans (s.memRead_memWrite_same s.pc w)

/-- Settles O47: the loaded state runs, and fetches the word it was given. -/
theorem fetchWordIsFetchedNext : Obligations.FetchWordIsFetchedNext := by
  refine fun s w => ⟨?_, fun a ha => ?_, s.withFetchWord_readReg w⟩
  · rw [step_running rfl, State.withFetchWord_fetchWord]
  · rw [State.withFetchWord_memRead, State.memRead_memWrite_other ha]

/-! ### Offsets count from the next address (R236) -/

/-- After the fetch an offset of `target - (address + 1)` leads to `target`. -/
theorem State.advancePc_pc_add_sext {n : Nat} {s : State} {off : BitVec n} {target : Word}
    (h : sext off = target - (s.pc + 1#16)) : s.advancePc.pc + sext off = target := by
  rw [h, BitVec.add_comm]
  exact BitVec.sub_add_cancel target (s.pc + 1#16)

theorem pcAddr9_advancePc {s : State} {off : BitVec 9} {target : Word}
    (h : sext off = target - (s.pc + 1#16)) : pcAddr9 s.advancePc off = target :=
  State.advancePc_pc_add_sext h

theorem pcAddr11_advancePc {s : State} {off : BitVec 11} {target : Word}
    (h : sext off = target - (s.pc + 1#16)) : pcAddr11 s.advancePc off = target :=
  State.advancePc_pc_add_sext h

theorem State.advancePc_memRead (s : State) (a : Word) : s.advancePc.memRead a = s.memRead a := rfl

theorem State.advancePc_gpr (s : State) (i : Reg) : s.advancePc.gpr i = s.gpr i := rfl

theorem indirectAddr_advancePc {s : State} {off : BitVec 9} {target : Word}
    (h : sext off = target - (s.pc + 1#16)) : indirectAddr s.advancePc off = s.memRead target := by
  rw [indirectAddr, pcAddr9_advancePc h, State.advancePc_memRead]

/-- The next state of a running machine is what the decoded instruction makes of the state after the fetch. -/
theorem step_next_eq {s t u : State} {i : Instr} (hhalt : s.halt = false) (hstep : step s = .next t)
    (hdec : decode (s.memRead s.pc) = i) (hexec : exec i s.advancePc = .next u) : t = u := by
  rw [step_running hhalt, State.fetchWord, hdec, hexec] at hstep
  exact (Host.Outcome.next.inj hstep).symm

/-- Settles O21: each instruction's own result, at the address `target` that its offset forms. -/
theorem offsetsCountFromNextAddress : Obligations.OffsetsCountFromNextAddress := by
  intro s t target hhalt hstep
  refine ⟨fun dr off hdec hoff => ?lea, fun dr off hdec hoff => ?ld, fun dr off hdec hoff => ?ldi,
    fun sr off hdec hoff => ?st, fun sr off hdec hoff => ?sti, fun m off hdec hoff htaken => ?br, fun off hdec hoff => ?jsr⟩
  case lea => rw [step_next_eq hhalt hstep hdec (exec_lea ..), State.writeResult_gpr_same, pcAddr9_advancePc hoff]
  case ld =>
    rw [step_next_eq hhalt hstep hdec (exec_ld ..), State.writeResult_gpr_same, pcAddr9_advancePc hoff,
      State.advancePc_memRead]
  case ldi =>
    rw [step_next_eq hhalt hstep hdec (exec_ldi ..), State.writeResult_gpr_same, indirectAddr_advancePc hoff,
      State.advancePc_memRead]
  case st =>
    rw [step_next_eq hhalt hstep hdec (exec_st ..), pcAddr9_advancePc hoff, State.memRead_memWrite_same, State.advancePc_gpr]
  case sti =>
    rw [step_next_eq hhalt hstep hdec (exec_sti ..), indirectAddr_advancePc hoff, State.memRead_memWrite_same,
      State.advancePc_gpr]
  case br =>
    rw [step_next_eq hhalt hstep hdec (exec_br_taken (s := s.advancePc) off htaken), State.setPc_pc, pcAddr9_advancePc hoff]
  case jsr =>
    rw [step_next_eq hhalt hstep hdec (exec_jsr ..), State.setPc_pc, pcAddr11_advancePc hoff, State.gpr_setPc,
      State.link_gpr_R7]
    exact ⟨rfl, rfl⟩

end Sys2Proof.Machine
